-- ==== Sys2Proof/Config.lean ====
section
/-! DEFINITION. The build-time configuration of the FIFO controller (spec/00_scope.md R1-R9, R102, R118),
the power-on values the spec leaves arbitrary (spec/70_reset_and_hazards.md R116), the opaque
configuration `Config.machine` of the machine behind the fixed names, and the five reference
configurations of the spec (decision D29).

R8: a configuration is a parameter of the machine and never part of its state. Every operation of this
model is therefore written for an arbitrary `c : Config`. -/

namespace Sys2Proof

/-- A configuration `(R, W, DW)` with the proofs R102 asks it to carry, so that a configuration that
breaks R1, R5 or R6 cannot be built, and with the three power-on draws of R116 and R37.

The field defaults only serve to derive `Inhabited`, which the opaque constant `Config.machine` needs;
no definition of the model relies on them. -/
structure Config where
  /-- R1: the requested storage size in elements. -/
  R : Nat := 1
  /-- R4: the width of each counter in bits. -/
  W : Nat := 1
  /-- R6: the width of one element in bits. -/
  DW : Nat := 1
  /-- R116: what `head` holds at power-on: any value. -/
  powerOnHead : BitVec W := 0
  /-- R116: what `tail` holds at power-on: any value. -/
  powerOnTail : BitVec W := 0
  /-- R37, R116: what each cell holds at power-on: any value, drawn once per cell. -/
  powerOnCell : Nat → BitVec DW := fun _ => 0
  /-- R1. -/
  R_pos : 1 ≤ R := by decide
  /-- R6. -/
  DW_pos : 1 ≤ DW := by decide
  /-- R5: the counter width strictly exceeds the capacity's bit width. -/
  W_wide : Nat.log2 R < W := by decide
deriving Inhabited

namespace Config

/-- R2: `b = floor(log2(R))`, the width of a cell index. -/
abbrev b (c : Config) : Nat := Nat.log2 c.R

/-- R2: the capacity `C = 2^b`, rounded down and never up. -/
abbrev C (c : Config) : Nat := 2 ^ c.b

/-- R3: the index mask `C - 1`. -/
abbrev MASK (c : Config) : Nat := c.C - 1

/-- R9: the width of the `length` output. -/
abbrev LW (c : Config) : Nat := c.b + 1

/-- R7: the usable depth. -/
abbrev depth (c : Config) : Nat := c.C - 1

/-- R5, R102, R118: the build-time check. A configuration with `R = 0`, `DW = 0` or `W <= b` is a build
failure: no block exists. -/
def build? (R W DW : Nat) (head tail : BitVec W) (cell : Nat → BitVec DW) : Option Config :=
  if h : 1 ≤ R ∧ 1 ≤ DW ∧ Nat.log2 R < W then
    some { R := R, W := W, DW := DW, powerOnHead := head, powerOnTail := tail, powerOnCell := cell,
           R_pos := h.1, DW_pos := h.2.1, W_wide := h.2.2 }
  else
    none

/-- The configuration of the machine behind the fixed names `State`, `exec`, `step` and `core`: an
implementation's own choice together with its power-on draws (log entries 1 and 2). It has no body, so
a theorem about that machine holds whatever the configuration and whatever the draws are. -/
opaque machine : Config

/-- D29: `REF = (R=100, W=8, DW=8)`, with the given power-on draws. -/
def ref (head tail : BitVec 8) (cell : Nat → BitVec 8) : Config where
  R := 100
  W := 8
  DW := 8
  powerOnHead := head
  powerOnTail := tail
  powerOnCell := cell

/-- D29: `BIG = (R=128, W=8, DW=8)`, with the given power-on draws. -/
def big (head tail : BitVec 8) (cell : Nat → BitVec 8) : Config where
  R := 128
  W := 8
  DW := 8
  powerOnHead := head
  powerOnTail := tail
  powerOnCell := cell

/-- D29: `SMALL = (R=4, W=3, DW=8)`, with the given power-on draws. -/
def small (head tail : BitVec 3) (cell : Nat → BitVec 8) : Config where
  R := 4
  W := 3
  DW := 8
  powerOnHead := head
  powerOnTail := tail
  powerOnCell := cell

/-- D29: `ODD = (R=5, W=3, DW=8)`, with the given power-on draws. -/
def odd (head tail : BitVec 3) (cell : Nat → BitVec 8) : Config where
  R := 5
  W := 3
  DW := 8
  powerOnHead := head
  powerOnTail := tail
  powerOnCell := cell

/-- D29: `ONE = (R=1, W=1, DW=8)`, with the given power-on draws. -/
def one (head tail : BitVec 1) (cell : Nat → BitVec 8) : Config where
  R := 1
  W := 1
  DW := 8
  powerOnHead := head
  powerOnTail := tail
  powerOnCell := cell

end Config

end Sys2Proof
end

