-- ==== Sys2Proof/Word.lean ====
section
/-! DEFINITION. The word types of a configuration (spec/00_scope.md R2, R4, R6, R9). All values are
unsigned and bit 0 is the least significant bit (section 5 there). -/

namespace Sys2Proof

/-- R4: the value of a counter, `W` bits. -/
abbrev Counter (c : Config) : Type := BitVec c.W

/-- R2, R30: a cell index, `b` bits (the empty vector when `b = 0`). -/
abbrev Index (c : Config) : Type := BitVec c.b

/-- R6, R32: one element, an opaque vector of `DW` bits. -/
abbrev Elem (c : Config) : Type := BitVec c.DW

/-- R9: the value of the `length` output, `LW = b + 1` bits. -/
abbrev Count (c : Config) : Type := BitVec c.LW

end Sys2Proof
end

