-- ==== Sys2Proof/Syntax.lean ====
section
/-! DEFINITION. The instructions of FIFOCTL-1 (the six commands and fourteen outputs of
spec/opcode_table.json), the stimulus of one cycle (spec/30_encoding.md R51, R53), the ports (R50), and
the trace's pseudo-operations (R58). -/

namespace Sys2Proof

/-- The values on the block's input ports in one cycle (R50): the four request wires and `wdata`. R53:
they are separate ports, and the stimulus word is a notation for them. -/
structure Stimulus (c : Config) where
  rst : Bool
  init : Bool
  pop : Bool
  push : Bool
  wdata : Elem c
deriving DecidableEq, Repr

/-- One constructor per row of spec/opcode_table.json. The operand of PUSH and PUSHPOP is the trace's
`<value>`, a number (R58); `Instr.wellFormed` says that it fits the `DW` wires.

The rows of format `CMD` are what a cycle's command word decodes to. A row of format `STATUS` is the
environment's reading of one output port, possible under every command word and selected by none
(R57). -/
inductive Instr where
  | reset
  | init
  | nop
  | push (value : Nat)
  | pop
  | pushpop (value : Nat)
  | length
  | isEmpty
  | isFull
  | rdata
  | wrIdx
  | rdIdx
  | wrWrap
  | rdWrap
  | headCarry
  | tailCarry
  | pushViol
  | popViol
  | headQ
  | tailQ
deriving DecidableEq, Repr

/-- R58: what an environment that follows the check-then-act protocol writes in a cycle. The three
pseudo-operations expand by looking at the outputs of their own cycle. -/
inductive Request where
  | reset
  | init
  | nop
  | tryPush (value : Nat)
  | tryPop
  | tryPushPop (value : Nat)
deriving DecidableEq, Repr

/-- R50: the block's ports, exactly these. -/
inductive Port where
  | clk
  | rst
  | init
  | pop
  | push
  | wdata
  | rdata
  | empty
  | full
  | length
  | wrIdx
  | rdIdx
  | wrWrap
  | rdWrap
  | headCarry
  | tailCarry
  | pushViol
  | popViol
  | headQ
  | tailQ
deriving DecidableEq, Repr

/-- R50: the direction of a port, seen from the block. -/
inductive Direction where
  | input
  | output
deriving DecidableEq, Repr

/-- R60, R107: the three roles of the environment. -/
inductive Role where
  | producer
  | consumer
  | initialiser
deriving DecidableEq, Repr

end Sys2Proof
end

