-- ==== Sys2Proof/WellFormed.lean ====
section
/-! DEFINITION. Well-formed instructions: the one check the trace syntax makes (spec/30_encoding.md
R58: a `<value>` is an unsigned number below `2^DW`). -/

namespace Sys2Proof

/-- R58: the operand of PUSH and PUSHPOP fits the `DW` wires of `wdata`. No other instruction has an
operand (R54), so every other one is well formed. -/
def Instr.wellFormed (c : Config) : Instr → Bool
  | .push value => decide (value < 2 ^ c.DW)
  | .pushpop value => decide (value < 2 ^ c.DW)
  | .reset => true
  | .init => true
  | .nop => true
  | .pop => true
  | .length => true
  | .isEmpty => true
  | .isFull => true
  | .rdata => true
  | .wrIdx => true
  | .rdIdx => true
  | .wrWrap => true
  | .rdWrap => true
  | .headCarry => true
  | .tailCarry => true
  | .pushViol => true
  | .popViol => true
  | .headQ => true
  | .tailQ => true

/-- R57: whether an instruction is a command (format `CMD`), the only rows a decoder selects among. -/
def Instr.isCommand : Instr → Bool
  | .reset => true
  | .init => true
  | .nop => true
  | .push _ => true
  | .pop => true
  | .pushpop _ => true
  | .length => false
  | .isEmpty => false
  | .isFull => false
  | .rdata => false
  | .wrIdx => false
  | .rdIdx => false
  | .wrWrap => false
  | .rdWrap => false
  | .headCarry => false
  | .tailCarry => false
  | .pushViol => false
  | .popViol => false
  | .headQ => false
  | .tailQ => false

end Sys2Proof
end

