-- ==== Sys2Proof/Decode.lean ====
section
/-! DEFINITION. The decoder and the encoder (spec/30_encoding.md R51-R54, R56; spec/opcode_table.json).

The decoder is total: all 16 command words are defined and none is rejected (R56). -/

namespace Sys2Proof

/-- R51: the command word `CW[3:0] = rst ++ init ++ pop ++ push`. -/
def Stimulus.cw {c : Config} (st : Stimulus c) : BitVec 4 :=
  BitVec.ofBool st.rst ++ BitVec.ofBool st.init ++ BitVec.ofBool st.pop ++ BitVec.ofBool st.push

/-- R51: the request wires that carry a command word, beside a given `wdata`. -/
def Stimulus.ofCw {c : Config} (cw : BitVec 4) (wdata : Elem c) : Stimulus c where
  rst := cw.getLsbD 3
  init := cw.getLsbD 2
  pop := cw.getLsbD 1
  push := cw.getLsbD 0
  wdata := wdata

/-- R53: the stimulus word `SW = CW ++ wdata`. -/
def Stimulus.word {c : Config} (st : Stimulus c) : BitVec (4 + c.DW) :=
  st.cw ++ st.wdata

/-- R53: the stimulus a stimulus word denotes: `SW[DW+3:DW] = CW`, `SW[DW-1:0] = wdata`. -/
def Stimulus.ofWord {c : Config} (sw : BitVec (4 + c.DW)) : Stimulus c :=
  Stimulus.ofCw (sw.extractLsb' c.DW 4) (sw.extractLsb' 0 c.DW)

/-- R52, R104: the command of a cycle. RESET over INIT over PUSH and POP; PUSH and POP together are
PUSHPOP. `wdata` is read only when a push is accepted (R54). -/
def decode {c : Config} (st : Stimulus c) : Instr :=
  if st.rst then .reset
  else if st.init then .init
  else
    match st.pop, st.push with
    | false, false => .nop
    | false, true => .push st.wdata.toNat
    | true, false => .pop
    | true, true => .pushpop st.wdata.toNat

/-- One row of format `CMD` of spec/opcode_table.json: it selects when `(CW & mask) == pattern`. -/
structure CommandRow where
  mnemonic : String
  pattern : BitVec 4
  mask : BitVec 4
deriving DecidableEq, Repr

/-- The `CMD` rows of spec/opcode_table.json, in the order of R52's table. -/
def commandTable : List CommandRow :=
  [ ⟨"RESET", 0x8#4, 0x8#4⟩,
    ⟨"INIT", 0x4#4, 0xC#4⟩,
    ⟨"NOP", 0x0#4, 0xF#4⟩,
    ⟨"PUSH", 0x1#4, 0xF#4⟩,
    ⟨"POP", 0x2#4, 0xF#4⟩,
    ⟨"PUSHPOP", 0x3#4, 0xF#4⟩ ]

/-- R52: "A row selects when (CW & mask) == match". -/
def CommandRow.selects (row : CommandRow) (cw : BitVec 4) : Bool :=
  cw &&& row.mask == row.pattern

/-- R52: the row of a command word, the first matching row. -/
def rowOf (cw : BitVec 4) : Option CommandRow :=
  commandTable.find? (fun row => row.selects cw)

/-- The mnemonic of an instruction, as spec/opcode_table.json spells it. -/
def Instr.mnemonic : Instr → String
  | .reset => "RESET"
  | .init => "INIT"
  | .nop => "NOP"
  | .push _ => "PUSH"
  | .pop => "POP"
  | .pushpop _ => "PUSHPOP"
  | .length => "LENGTH"
  | .isEmpty => "IS_EMPTY"
  | .isFull => "IS_FULL"
  | .rdata => "RDATA"
  | .wrIdx => "WR_IDX"
  | .rdIdx => "RD_IDX"
  | .wrWrap => "WR_WRAP"
  | .rdWrap => "RD_WRAP"
  | .headCarry => "HEAD_CARRY"
  | .tailCarry => "TAIL_CARRY"
  | .pushViol => "PUSH_VIOL"
  | .popViol => "POP_VIOL"
  | .headQ => "HEAD_Q"
  | .tailQ => "TAIL_Q"

/-- R53, R56: the canonical stimulus of a command, with `wdata = 0` where no push is accepted (R54). An
output read has none: no command word selects it (R57). -/
def encode (c : Config) : Instr → Option (Stimulus c)
  | .reset => some (Stimulus.ofCw 0b1000#4 0)
  | .init => some (Stimulus.ofCw 0b0100#4 0)
  | .nop => some (Stimulus.ofCw 0b0000#4 0)
  | .push value => some (Stimulus.ofCw 0b0001#4 (BitVec.ofNat c.DW value))
  | .pop => some (Stimulus.ofCw 0b0010#4 0)
  | .pushpop value => some (Stimulus.ofCw 0b0011#4 (BitVec.ofNat c.DW value))
  | .length => none
  | .isEmpty => none
  | .isFull => none
  | .rdata => none
  | .wrIdx => none
  | .rdIdx => none
  | .wrWrap => none
  | .rdWrap => none
  | .headCarry => none
  | .tailCarry => none
  | .pushViol => none
  | .popViol => none
  | .headQ => none
  | .tailQ => none

/-- The stimulus of a table word: spec/opcode_table.json numbers the command word's bits 3 down to 0,
and the operand word `wdata` counts on from bit 4 (log entry 12). -/
def Stimulus.ofTableWord (c : Config) (nbits w : Nat) : Stimulus c :=
  Stimulus.ofCw (BitVec.ofNat 4 (w % 2 ^ nbits)) (BitVec.ofNat c.DW (w % 2 ^ nbits / 16))

/-- The instruction the decoder reads from a table word. It is total (R56), so it never refuses. -/
def decodeTableWord (nbits w : Nat) : Option Instr :=
  some (decode (Stimulus.ofTableWord Config.machine nbits w))

end Sys2Proof
end

