-- ==== Sys2Proof/Machine/State.lean ====
section
/-! DEFINITION. The state of the machine (spec/10_state.md R10-R19), its faults and refusals, and the
state right after reset.

`Block` is the block's own state and nothing else (R10). `Environment` is the other side of the ports: the
stimuli of the present and the coming cycles, and the environment's record of what the output ports showed.
A step of the host's form takes no input and shows no output, so the state it steps on is the two together
(log entry 21). No rule of the block reads the record. -/

namespace Sys2Proof.Machine

/-- The fourteen output ports (R50), as values. The zero-width ports of `b = 0` have the value 0. -/
structure Outputs (c : Config) where
  rdata : Elem c
  empty : Bool
  full : Bool
  length : Count c
  wrIdx : Index c
  rdIdx : Index c
  wrWrap : Bool
  rdWrap : Bool
  headCarry : Bool
  tailCarry : Bool
  pushViol : Bool
  popViol : Bool
  headQ : Counter c
  tailQ : Counter c
deriving DecidableEq, Repr

/-- The element store (R14, R30): the cells whose content differs from their power-on draw, as pairs of
a cell index and an element, in rising order (`Store.wf`). A cell that is not listed holds its draw
`c.powerOnCell i` (R37). -/
abbrev Store (c : Config) : Type := List (Nat × Elem c)

/-- R10: the block's whole architectural state: exactly `head`, `tail` and `store`, and the one bit the rule
allows a model. -/
structure Block (c : Config) where
  /-- R11: the write position. -/
  head : Counter c
  /-- R12: the read position. -/
  tail : Counter c
  /-- R14: the cells. -/
  store : Store c
  /-- R10, R116: whether a RESET or an INIT was executed since power-on. -/
  initialised : Bool
deriving DecidableEq, Repr

/-- The environment's side of the ports. None of it is state of the block (R10, R18). -/
structure Environment (c : Config) where
  /-- R51, R53: the input ports of the present cycle (the first entry) and of the coming cycles. When
  the list is empty nothing is requested: NOP (log entry 4). -/
  inputs : List (Stimulus c)
  /-- What the environment last saw on each output port (log entry 5). -/
  seen : Outputs c
  /-- R59: the element returned by the last command, if it accepted a pop (log entry 6). -/
  ret : Option (Elem c)
deriving DecidableEq, Repr

/-- The state of the machine in configuration `c`: the block and its environment (log entry 21). -/
structure State.Of (c : Config) extends Block c, Environment c
deriving DecidableEq, Repr

/-- The state of the machine behind the fixed names: the configuration is `Config.machine`, of which
nothing is known. -/
abbrev State : Type := State.Of Config.machine

/-- Faults of the model's checked mode only (spec/93_implementation_defined.md U9, R108: the document's
optional debug assert). The block itself raises nothing (R100): `step` and `exec` never answer one. -/
inductive Fault where
  /-- Raised by `stepCheckedIn` when a push is accepted while `full = 1` and no pop violates. Safe: the
  checked mode stops where the hardware goes on. -/
  | pushWhenFull
  /-- Raised by `stepCheckedIn` when a pop is accepted while `empty = 1` and no push violates. Safe. -/
  | popWhenEmpty
  /-- Raised by `stepCheckedIn` when both happen in one cycle, which needs `C = 1` (R104). Safe. -/
  | pushWhenFullAndPopWhenEmpty
deriving DecidableEq, Repr

/-- Refusals. The block refuses no command (R56, R126), so no meaning answers one. -/
inductive Refusal where
  /-- Raised by `exec` for an instruction that has no meaning yet. No arm of `exec` uses it. Safe. -/
  | notModelled (mnemonic : String)
deriving DecidableEq, Repr

/-- What a step of the machine in configuration `c` answers. -/
abbrev Result (c : Config) : Type := Host.Outcome (State.Of c) Fault Refusal

/-- R19: the machine right after RESET. Both counters are 0 and the store is what it was at power-on.
The record of the outputs has the values R19 tables for the outputs after RESET, under NOP. -/
def State.Of.reset (c : Config) : State.Of c where
  head := 0
  tail := 0
  store := []
  initialised := true
  inputs := []
  seen :=
    { rdata := c.powerOnCell 0
      empty := true
      full := decide (c.C = 1)
      length := 0
      wrIdx := 0
      rdIdx := 0
      wrWrap := false
      rdWrap := false
      headCarry := false
      tailCarry := false
      pushViol := false
      popViol := false
      headQ := 0
      tailQ := 0 }
  ret := none

/-- R19: the state of the machine behind the fixed names right after RESET. -/
def State.reset : State := State.Of.reset Config.machine

end Sys2Proof.Machine
end

