-- ==== Sys2Proof/Machine/Ops.lean ====
section
/-! DEFINITION. The named operations on the store, the counters, the input ports and the record
(spec/20_memory.md R30-R38, spec/10_state.md R11-R14).

There is no operation that takes an exception and none that returns from one: the block raises nothing,
saves nothing and has no handler (spec/60_exceptions.md R100, R105, R106). -/

namespace Sys2Proof.Machine

variable {c : Config}

/-- R37: `MemRead(i, 1)`. A cell that is not listed holds its power-on draw. -/
def Store.read (m : Store c) (i : Nat) : Elem c :=
  match m with
  | [] => c.powerOnCell i
  | (k, x) :: rest => if k = i then x else Store.read rest i

/-- The store without an entry for cell `i`. -/
def Store.erase (m : Store c) (i : Nat) : Store c :=
  match m with
  | [] => []
  | (k, x) :: rest => if k = i then Store.erase rest i else (k, x) :: Store.erase rest i

/-- The store with an entry for cell `i` put at its place in the rising order. -/
def Store.insert (m : Store c) (i : Nat) (v : Elem c) : Store c :=
  match m with
  | [] => [(i, v)]
  | (k, x) :: rest => if i < k then (i, v) :: (k, x) :: rest else (k, x) :: Store.insert rest i v

/-- R36: `MemWrite(i, 1, v)`: cell `i` takes the element and no other cell changes. An element equal to
the cell's power-on draw is not listed. -/
def Store.write (m : Store c) (i : Nat) (v : Elem c) : Store c :=
  if v = c.powerOnCell i then Store.erase m i else Store.insert (Store.erase m i) i v

/-- The canonical form: indices strictly rising and below `C` (R14, R35), and no listed cell equal to
what an unlisted one reads as. -/
abbrev Store.wf (m : Store c) : Prop :=
  m.Pairwise (fun x y => x.1 < y.1) ∧ ∀ e ∈ m, e.1 < c.C ∧ e.2 ≠ c.powerOnCell e.1

/-- R13, R95 (i): the only arithmetic applied to a counter, `(v + 1) mod 2^W`. -/
def succ (v : Counter c) : Counter c := v + 1

/-- Writes the write position. -/
def State.Of.setHead (s : State.Of c) (v : Counter c) : State.Of c := { s with head := v }

/-- Writes the read position. -/
def State.Of.setTail (s : State.Of c) (v : Counter c) : State.Of c := { s with tail := v }

/-- Replaces the store. -/
def State.Of.setStore (s : State.Of c) (m : Store c) : State.Of c := { s with store := m }

/-- Notes that a RESET or an INIT was executed (R116). -/
def State.Of.setInitialised (s : State.Of c) : State.Of c := { s with initialised := true }

/-- Replaces the stimuli of the present and the coming cycles. -/
def State.Of.setInputs (s : State.Of c) (l : List (Stimulus c)) : State.Of c := { s with inputs := l }

/-- Replaces the environment's record of the outputs. -/
def State.Of.setSeen (s : State.Of c) (o : Outputs c) : State.Of c := { s with seen := o }

/-- Replaces the element returned by the last command. -/
def State.Of.setRet (s : State.Of c) (r : Option (Elem c)) : State.Of c := { s with ret := r }

/-- The input ports when nothing is requested: NOP with its canonical `wdata` (R54, R67). -/
def idleStimulus (c : Config) : Stimulus c where
  rst := false
  init := false
  pop := false
  push := false
  wdata := 0

/-- R51: the input ports in the present cycle. -/
def State.Of.present (s : State.Of c) : Stimulus c := s.inputs.headD (idleStimulus c)

/-- R39, R125: the edge ends the cycle, and the next stimulus stands on the ports. -/
def State.Of.advance (s : State.Of c) : State.Of c := s.setInputs s.inputs.tail

/-- The state with the given stimulus on the ports in the present cycle. -/
def State.Of.withPresent (s : State.Of c) (st : Stimulus c) : State.Of c :=
  s.setInputs (st :: s.inputs.tail)

/-- R65, R66: the state change RESET and INIT share: both counters become 0 and no cell changes. -/
def State.Of.zeroCounters (s : State.Of c) : State.Of c := ((s.setHead 0).setTail 0).setInitialised

end Sys2Proof.Machine
end

