-- ==== Sys2Proof/Machine/Operands.lean ====
section
/-! DEFINITION. The operands (spec/30_encoding.md R54, R55, R59; spec/20_memory.md R31): the element to
push, the two masked indices, which of push and pop is accepted, and the element a pop returns. -/

namespace Sys2Proof.Machine

variable {c : Config}

/-- R54: the element on the `DW` wires of `wdata`. -/
def wdataOf (c : Config) (value : Nat) : Elem c := BitVec.ofNat c.DW value

/-- R3: `MASK`, as a `W`-bit constant. -/
def mask (c : Config) : Counter c := BitVec.ofNat c.W c.MASK

/-- R3, R31: pointer masking, `idx(v) = v & MASK`, taken as a `b`-bit index. -/
def idx (v : Counter c) : Index c := (v &&& mask c).setWidth c.b

/-- R31, R55: the cell the next push writes. -/
def writeCell (s : State.Of c) : Nat := (idx s.head).toNat

/-- R31, R55: the cell the next pop reads. -/
def readCell (s : State.Of c) : Nat := (idx s.tail).toNat

/-- R52: the operand of an accepted push. A push is accepted exactly when the command is PUSH or
PUSHPOP. -/
def pushOperand : Instr → Option Nat
  | .push value => some value
  | .pushpop value => some value
  | .reset => none
  | .init => none
  | .nop => none
  | .pop => none
  | .length => none
  | .isEmpty => none
  | .isFull => none
  | .rdata => none
  | .wrIdx => none
  | .rdIdx => none
  | .wrWrap => none
  | .rdWrap => none
  | .headCarry => none
  | .tailCarry => none
  | .pushViol => none
  | .popViol => none
  | .headQ => none
  | .tailQ => none

/-- R52: whether the command accepts a push. -/
def pushAccepted (i : Instr) : Bool := (pushOperand i).isSome

/-- R52: whether the command accepts a pop: exactly when it is POP or PUSHPOP. -/
def popAccepted : Instr → Bool
  | .pop => true
  | .pushpop _ => true
  | .push _ => false
  | .reset => false
  | .init => false
  | .nop => false
  | .length => false
  | .isEmpty => false
  | .isFull => false
  | .rdata => false
  | .wrIdx => false
  | .rdIdx => false
  | .wrWrap => false
  | .rdWrap => false
  | .headCarry => false
  | .tailCarry => false
  | .pushViol => false
  | .popViol => false
  | .headQ => false
  | .tailQ => false

end Sys2Proof.Machine
end

