-- ==== Sys2Proof/Machine/Flags.lean ====
section
/-! DEFINITION. The fourteen status outputs (spec/42_status.md R80-R93), each a pure function of the
state and, for six of them, of the command of the cycle. None is stored by the block (R17, R18). -/

namespace Sys2Proof.Machine

variable {c : Config}

/-- R80: `occupancy = ((head - tail) mod 2^W) & MASK`. -/
def occupancy (s : State.Of c) : Index c := ((s.head - s.tail) &&& mask c).setWidth c.b

/-- R80: output `length`, the occupancy zero-extended to `LW` bits. -/
def lengthOut (s : State.Of c) : Count c := (occupancy s).setWidth c.LW

/-- R81: output `empty`, the `b`-bit equality of the masked indices. -/
def emptyOut (s : State.Of c) : Bool := idx s.head == idx s.tail

/-- R82: output `full`: the occupancy equals `C - 1`. -/
def fullOut (s : State.Of c) : Bool := occupancy s == BitVec.ofNat c.b c.MASK

/-- R83: output `rdata`, the combinational read of cell `idx(tail)`. -/
def rdataOut (s : State.Of c) : Elem c := Store.read s.store (readCell s)

/-- R84: output `wr_idx`. -/
def wrIdxOut (s : State.Of c) : Index c := idx s.head

/-- R85: output `rd_idx`. -/
def rdIdxOut (s : State.Of c) : Index c := idx s.tail

/-- R86: output `wr_wrap`: the cycle's push wraps the write index from `C - 1` to 0. -/
def wrWrapOut (i : Instr) (s : State.Of c) : Bool :=
  pushAccepted i && idx s.head == BitVec.ofNat c.b c.MASK

/-- R87: output `rd_wrap`: the cycle's pop wraps the read index from `C - 1` to 0. -/
def rdWrapOut (i : Instr) (s : State.Of c) : Bool :=
  popAccepted i && idx s.tail == BitVec.ofNat c.b c.MASK

/-- R88: output `head_carry`: the cycle's push wraps `head` from `2^W - 1` to 0. -/
def headCarryOut (i : Instr) (s : State.Of c) : Bool :=
  pushAccepted i && s.head == BitVec.allOnes c.W

/-- R89: output `tail_carry`: the cycle's pop wraps `tail` from `2^W - 1` to 0. -/
def tailCarryOut (i : Instr) (s : State.Of c) : Bool :=
  popAccepted i && s.tail == BitVec.allOnes c.W

/-- R90: output `push_viol`: a push is accepted while `full = 1`. -/
def pushViolOut (i : Instr) (s : State.Of c) : Bool := pushAccepted i && fullOut s

/-- R91: output `pop_viol`: a pop is accepted while `empty = 1`. -/
def popViolOut (i : Instr) (s : State.Of c) : Bool := popAccepted i && emptyOut s

/-- R92: output `head_q`. -/
def headQOut (s : State.Of c) : Counter c := s.head

/-- R93: output `tail_q`. -/
def tailQOut (s : State.Of c) : Counter c := s.tail

/-- R57: what the fourteen ports show in a cycle in state `s` whose command is `i`. -/
def outputs (i : Instr) (s : State.Of c) : Outputs c where
  rdata := rdataOut s
  empty := emptyOut s
  full := fullOut s
  length := lengthOut s
  wrIdx := wrIdxOut s
  rdIdx := rdIdxOut s
  wrWrap := wrWrapOut i s
  rdWrap := rdWrapOut i s
  headCarry := headCarryOut i s
  tailCarry := tailCarryOut i s
  pushViol := pushViolOut i s
  popViol := popViolOut i s
  headQ := headQOut s
  tailQ := tailQOut s

/-- R59: the element returned in a cycle: `rdata` of that cycle if its command accepts a pop. -/
def returned (i : Instr) (s : State.Of c) : Option (Elem c) :=
  if popAccepted i then some (rdataOut s) else none

/-- R45, R59: the environment captures, at the edge that ends the cycle of command `i`, what the outputs
showed during the cycle. -/
def State.Of.capture (s : State.Of c) (i : Instr) : State.Of c :=
  (s.setSeen (outputs i s)).setRet (returned i s)

/-- R51, R52: the command on the input ports in the present cycle. -/
def presentCommand (s : State.Of c) : Instr := decode s.present

end Sys2Proof.Machine
end

