-- ==== Sys2Proof/Machine/Init.lean ====
section
/-! DEFINITION. The initialisation and idle commands RESET, INIT and NOP (spec/40_init.md R65-R67), and
the power-on state (spec/70_reset_and_hazards.md R116). -/

namespace Sys2Proof.Machine

variable {c : Config}

/-- R65: RESET. The outputs of the cycle show the state before the edge; then both counters are 0 and
the store is untouched. -/
def execReset (s : State.Of c) : Result c := .next (s.capture .reset).zeroCounters

/-- R66: INIT, "exactly the state change of RESET". -/
def execInit (s : State.Of c) : Result c := .next (s.capture .init).zeroCounters

/-- R67: NOP. The counters and the cells keep their values. -/
def execNop (s : State.Of c) : Result c := .next (s.capture .nop)

/-- R116: the power-on state. The counters and the cells hold their arbitrary draws, and nothing was
initialised. The record shows the outputs' formulas on those draws. -/
def powerOn (c : Config) : State.Of c :=
  let s : State.Of c :=
    { State.Of.reset c with head := c.powerOnHead, tail := c.powerOnTail, initialised := false }
  s.setSeen (outputs .nop s)

end Sys2Proof.Machine
end

