-- ==== Sys2Proof/Machine/Move.lean ====
section
/-! DEFINITION. The data movement commands PUSH, POP and PUSHPOP (spec/41_push_pop.md R70-R72). All are
unchecked: neither `full` nor `empty` changes what they do (R74, R75, R76). -/

namespace Sys2Proof.Machine

variable {c : Config}

/-- R70: the push half: cell `idx(head)` takes the element and `head` advances by one. -/
def State.Of.pushHalf (s : State.Of c) (v : Elem c) : State.Of c :=
  (s.setStore (Store.write s.store (writeCell s) v)).setHead (succ s.head)

/-- R71: the pop half: `tail` advances by one and the popped cell is not cleared. -/
def State.Of.popHalf (s : State.Of c) : State.Of c := s.setTail (succ s.tail)

/-- R70: PUSH. -/
def execPush (value : Nat) (s : State.Of c) : Result c :=
  .next ((s.capture (.push value)).pushHalf (wdataOf c value))

/-- R71: POP. The element returned is `rdata` of this cycle. -/
def execPop (s : State.Of c) : Result c := .next (s.capture .pop).popHalf

/-- R72, R38: PUSHPOP. The element returned is the content of cell `idx(tail)` before this cycle's
write; then both halves land together. They write different fields, so their order does not show. -/
def execPushpop (value : Nat) (s : State.Of c) : Result c :=
  .next (((s.capture (.pushpop value)).pushHalf (wdataOf c value)).popHalf)

end Sys2Proof.Machine
end

