-- ==== Sys2Proof/Machine/Status.lean ====
section
/-! DEFINITION. The environment's reading of each output port (spec/42_status.md R80-R93). A read needs no
command, costs no cycle and changes nothing of the block (spec/30_encoding.md R57, R94): the value goes to
the environment's record of that port, and the stimulus of the present cycle stays on the ports. The six
command-dependent outputs are read under the command of the present cycle. -/

namespace Sys2Proof.Machine

variable {c : Config}

/-- R80: LENGTH, a read of output `length`. -/
def execLength (s : State.Of c) : Result c :=
  .next (s.setSeen { s.seen with length := lengthOut s })

/-- R81: IS_EMPTY, a read of output `empty`. -/
def execIsEmpty (s : State.Of c) : Result c :=
  .next (s.setSeen { s.seen with empty := emptyOut s })

/-- R82: IS_FULL, a read of output `full`. -/
def execIsFull (s : State.Of c) : Result c :=
  .next (s.setSeen { s.seen with full := fullOut s })

/-- R83: RDATA, a read of output `rdata`. -/
def execRdata (s : State.Of c) : Result c :=
  .next (s.setSeen { s.seen with rdata := rdataOut s })

/-- R84: WR_IDX, a read of output `wr_idx`. -/
def execWrIdx (s : State.Of c) : Result c :=
  .next (s.setSeen { s.seen with wrIdx := wrIdxOut s })

/-- R85: RD_IDX, a read of output `rd_idx`. -/
def execRdIdx (s : State.Of c) : Result c :=
  .next (s.setSeen { s.seen with rdIdx := rdIdxOut s })

/-- R86: WR_WRAP, a read of output `wr_wrap`. -/
def execWrWrap (s : State.Of c) : Result c :=
  .next (s.setSeen { s.seen with wrWrap := wrWrapOut (presentCommand s) s })

/-- R87: RD_WRAP, a read of output `rd_wrap`. -/
def execRdWrap (s : State.Of c) : Result c :=
  .next (s.setSeen { s.seen with rdWrap := rdWrapOut (presentCommand s) s })

/-- R88: HEAD_CARRY, a read of output `head_carry`. -/
def execHeadCarry (s : State.Of c) : Result c :=
  .next (s.setSeen { s.seen with headCarry := headCarryOut (presentCommand s) s })

/-- R89: TAIL_CARRY, a read of output `tail_carry`. -/
def execTailCarry (s : State.Of c) : Result c :=
  .next (s.setSeen { s.seen with tailCarry := tailCarryOut (presentCommand s) s })

/-- R90: PUSH_VIOL, a read of output `push_viol`. -/
def execPushViol (s : State.Of c) : Result c :=
  .next (s.setSeen { s.seen with pushViol := pushViolOut (presentCommand s) s })

/-- R91: POP_VIOL, a read of output `pop_viol`. -/
def execPopViol (s : State.Of c) : Result c :=
  .next (s.setSeen { s.seen with popViol := popViolOut (presentCommand s) s })

/-- R92: HEAD_Q, a read of output `head_q`. -/
def execHeadQ (s : State.Of c) : Result c :=
  .next (s.setSeen { s.seen with headQ := headQOut s })

/-- R93: TAIL_Q, a read of output `tail_q`. -/
def execTailQ (s : State.Of c) : Result c :=
  .next (s.setSeen { s.seen with tailQ := tailQOut s })

end Sys2Proof.Machine
end

