-- ==== Sys2Proof/Machine/Dispatch.lean ====
section
/-! DEFINITION. The dispatch of an instruction to its meaning. -/

namespace Sys2Proof.Machine

def exec (i : Instr) (s : State) : Host.Outcome State Fault Refusal :=
  match i with
  | .reset => Sys2Proof.Machine.execReset s
  | .init => Sys2Proof.Machine.execInit s
  | .nop => Sys2Proof.Machine.execNop s
  | .push value => Sys2Proof.Machine.execPush value s
  | .pop => Sys2Proof.Machine.execPop s
  | .pushpop value => Sys2Proof.Machine.execPushpop value s
  | .length => Sys2Proof.Machine.execLength s
  | .isEmpty => Sys2Proof.Machine.execIsEmpty s
  | .isFull => Sys2Proof.Machine.execIsFull s
  | .rdata => Sys2Proof.Machine.execRdata s
  | .wrIdx => Sys2Proof.Machine.execWrIdx s
  | .rdIdx => Sys2Proof.Machine.execRdIdx s
  | .wrWrap => Sys2Proof.Machine.execWrWrap s
  | .rdWrap => Sys2Proof.Machine.execRdWrap s
  | .headCarry => Sys2Proof.Machine.execHeadCarry s
  | .tailCarry => Sys2Proof.Machine.execTailCarry s
  | .pushViol => Sys2Proof.Machine.execPushViol s
  | .popViol => Sys2Proof.Machine.execPopViol s
  | .headQ => Sys2Proof.Machine.execHeadQ s
  | .tailQ => Sys2Proof.Machine.execTailQ s

end Sys2Proof.Machine
end

