-- ==== Sys2Proof/Machine/Step.lean ====
section
/-! DEFINITION. One step of the machine: one cycle, ended by one rising edge of `clk`
(spec/20_memory.md R39, spec/70_reset_and_hazards.md R125). -/

namespace Sys2Proof.Machine

/-- R51, R52: the command on the input ports in the present cycle is performed, and the next stimulus
stands on the ports. -/
def step (s : State) : Host.Outcome State Fault Refusal := exec (presentCommand s) s.advance

/-- The state with a table word's stimulus on the input ports in the present cycle (log entry 9). -/
def State.withFetchWord (s : State) (nbits w : Nat) : State :=
  s.withPresent (Stimulus.ofTableWord Config.machine nbits w)

end Sys2Proof.Machine
end

