-- ==== Sys2Proof/Machine/Environment.lean ====
section
/-! DEFINITION. What the spec says of the environment: the port table (spec/30_encoding.md R50), the
roles (R60, spec/60_exceptions.md R107), and the expansion of the pseudo-operations (R58). -/

namespace Sys2Proof.Machine

variable {c : Config}

/-- R50: the direction of a port. -/
def portDirection : Port → Direction
  | .clk => .input
  | .rst => .input
  | .init => .input
  | .pop => .input
  | .push => .input
  | .wdata => .input
  | .rdata => .output
  | .empty => .output
  | .full => .output
  | .length => .output
  | .wrIdx => .output
  | .rdIdx => .output
  | .wrWrap => .output
  | .rdWrap => .output
  | .headCarry => .output
  | .tailCarry => .output
  | .pushViol => .output
  | .popViol => .output
  | .headQ => .output
  | .tailQ => .output

/-- R50: the width of a port in bits. A port of width 0 is absent. -/
def portWidth (c : Config) : Port → Nat
  | .clk => 1
  | .rst => 1
  | .init => 1
  | .pop => 1
  | .push => 1
  | .wdata => c.DW
  | .rdata => c.DW
  | .empty => 1
  | .full => 1
  | .length => c.LW
  | .wrIdx => c.b
  | .rdIdx => c.b
  | .wrWrap => 1
  | .rdWrap => 1
  | .headCarry => 1
  | .tailCarry => 1
  | .pushViol => 1
  | .popViol => 1
  | .headQ => c.W
  | .tailQ => c.W

/-- R50, R107: the role that may drive an input port. `clk` is driven by none of the three, and an output
by the block. -/
def driverOf : Port → Option Role
  | .push => some .producer
  | .wdata => some .producer
  | .pop => some .consumer
  | .rst => some .initialiser
  | .init => some .initialiser
  | .clk => none
  | .rdata => none
  | .empty => none
  | .full => none
  | .length => none
  | .wrIdx => none
  | .rdIdx => none
  | .wrWrap => none
  | .rdWrap => none
  | .headCarry => none
  | .tailCarry => none
  | .pushViol => none
  | .popViol => none
  | .headQ => none
  | .tailQ => none

/-- R107: whether a role may drive a port. -/
def mayDrive (r : Role) (p : Port) : Bool := driverOf p == some r

/-- R107: every role may read every output. -/
def mayRead (_r : Role) (p : Port) : Bool := portDirection p == .output

/-- R60: the port group of each role's handle. -/
def handle : Role → List Port
  | .producer => [.push, .wdata, .full]
  | .consumer => [.pop, .rdata, .empty]
  | .initialiser => [.rst, .init]

/-- R58: the command a request expands to, by the outputs of its own cycle. -/
def expand (r : Request) (s : State.Of c) : Instr :=
  match r with
  | .reset => .reset
  | .init => .init
  | .nop => .nop
  | .tryPush value => if fullOut s then .nop else .push value
  | .tryPop => if emptyOut s then .nop else .pop
  | .tryPushPop value =>
    match fullOut s, emptyOut s with
    | false, false => .pushpop value
    | false, true => .push value
    | true, false => .pop
    | true, true => .nop

end Sys2Proof.Machine
end

