-- ==== Sys2Proof/Machine/Every.lean ====
section
/-! DEFINITION. The machine in EVERY configuration. `exec` and `step` have the fixed type of the machine in
`Config.machine`; `execIn`, `stepIn` and `coreIn` are the same machine in a configuration of the reader's
choice (spec/00_scope.md R8), so that a run can be computed in the reference configurations and a claim
can be made about all of them. Laws/Every.lean proves that `exec` and `step` are their instances. -/

namespace Sys2Proof.Machine

variable {c : Config}

/-- The meaning of each instruction, in configuration `c`. -/
def execIn (i : Instr) (s : State.Of c) : Result c :=
  match i with
  | .reset => execReset s
  | .init => execInit s
  | .nop => execNop s
  | .push value => execPush value s
  | .pop => execPop s
  | .pushpop value => execPushpop value s
  | .length => execLength s
  | .isEmpty => execIsEmpty s
  | .isFull => execIsFull s
  | .rdata => execRdata s
  | .wrIdx => execWrIdx s
  | .rdIdx => execRdIdx s
  | .wrWrap => execWrWrap s
  | .rdWrap => execRdWrap s
  | .headCarry => execHeadCarry s
  | .tailCarry => execTailCarry s
  | .pushViol => execPushViol s
  | .popViol => execPopViol s
  | .headQ => execHeadQ s
  | .tailQ => execTailQ s

/-- R39, R125: one cycle, ended by one rising edge of `clk`: the command on the input ports is performed,
and the next stimulus stands on the ports. -/
def stepIn (s : State.Of c) : Result c := execIn (presentCommand s) s.advance

/-- The machine in configuration `c`, in the host's form. -/
def coreIn (c : Config) : Host.Core where
  State := State.Of c
  Fault := Fault
  Refusal := Refusal
  step := stepIn
  reset := State.Of.reset c

end Sys2Proof.Machine
end

