-- ==== Sys2Proof/Safety.lean ====
section
/-! DEFINITION. The terms in which claims about runs are stated: the cycles of a run, the
protocol-honouring discipline (spec/10_state.md R20, spec/60_exceptions.md R108), the queue the cells
hold, the model's invariant, the relation of states that agree on the low counter bits (R21), and the
checked mode (spec/93_implementation_defined.md U9). -/

namespace Sys2Proof.Machine

variable {c : Config}

/-- The state after one cycle. The block always has a next state (R100, R126); a state the machine stopped
in would stay. -/
def cycle (s : State.Of c) : State.Of c :=
  match stepIn s with
  | .next t => t
  | .fault _ => s
  | .refused _ => s

/-- The state after `k` cycles. -/
def after : Nat → State.Of c → State.Of c
  | 0, s => s
  | k + 1, s => after k (cycle s)

/-- The commands of the next `k` cycles, oldest first. -/
def commands : Nat → State.Of c → List Instr
  | 0, _ => []
  | k + 1, s => presentCommand s :: commands k s.advance

/-- The elements of the pushes accepted in the next `k` cycles, oldest first. -/
def pushedIn (k : Nat) (s : State.Of c) : List (Elem c) :=
  ((commands k s).filterMap pushOperand).map (wdataOf c)

/-- The elements returned by the pops accepted in the next `k` cycles, oldest first (R59). -/
def returnedIn : Nat → State.Of c → List (Elem c)
  | 0, _ => []
  | k + 1, s => (cycle s).ret.toList ++ returnedIn k (cycle s)

/-- How many of the next `k` cycles accept a push. -/
def pushCount (k : Nat) (s : State.Of c) : Nat := (commands k s).countP pushAccepted

/-- How many of the next `k` cycles accept a pop. -/
def popCount (k : Nat) (s : State.Of c) : Nat := (commands k s).countP popAccepted

/-- R65, R66: whether a command initialises the block. -/
def initialises (i : Instr) : Bool := i == .reset || i == .init

/-- Whether none of the next `k` cycles is a RESET or an INIT. -/
def quiet (k : Nat) (s : State.Of c) : Bool := (commands k s).all (fun i => !initialises i)

/-- R20: whether in each of the next `k` cycles an accepted push meets `full = 0` and an accepted pop meets
`empty = 0`. -/
def honouring : Nat → State.Of c → Bool
  | 0, _ => true
  | k + 1, s =>
    (!pushAccepted (presentCommand s) || !fullOut s)
      && (!popAccepted (presentCommand s) || !emptyOut s)
      && honouring k (cycle s)

/-- R108: whether in each of the next `k` cycles both violation outputs, as the environment sees them, are
0. -/
def noViolationSeen : Nat → State.Of c → Bool
  | 0, _ => true
  | k + 1, s =>
    !(cycle s).seen.pushViol && !(cycle s).seen.popViol && noViolationSeen k (cycle s)

/-- R20: the elements the buffer presents as queued, oldest first: the cells `idx(tail)`, `idx(tail+1)`, …,
`length` of them. -/
def queue (s : State.Of c) : List (Elem c) :=
  (List.range (lengthOut s).toNat).map
    (fun j => Store.read s.store (idx (s.tail + BitVec.ofNat c.W j)).toNat)

/-- R96: the equivalences that hold between the recorded outputs whenever they were captured together. -/
def Outputs.Coherent (o : Outputs c) : Prop :=
  o.length.toNat < c.C ∧
    (o.empty = true ↔ o.length.toNat = 0) ∧
    (o.full = true ↔ o.length.toNat = c.C - 1) ∧
    (o.length.toNat : Int) = ((o.wrIdx.toNat : Int) - o.rdIdx.toNat) % (c.C : Nat) ∧
    o.wrIdx.toNat = o.headQ.toNat % c.C ∧
    o.rdIdx.toNat = o.tailQ.toNat % c.C ∧
    (o.headCarry = true → o.wrWrap = true) ∧
    (o.tailCarry = true → o.rdWrap = true) ∧
    (o.pushViol = true → o.full = true) ∧
    (o.popViol = true → o.empty = true)

/-- The invariant of the model: the store is in its canonical form, and the record of the outputs is one
that a single cycle can show. -/
def Inv (s : State.Of c) : Prop := Store.wf s.store ∧ s.seen.Coherent

/-- The fourteen outputs of a cycle in state `s`, with the given values on the six command-dependent
ports. -/
def shown (s : State.Of c) (wrWrap rdWrap headCarry tailCarry pushViol popViol : Bool) : Outputs c where
  rdata := rdataOut s
  empty := emptyOut s
  full := fullOut s
  length := lengthOut s
  wrIdx := wrIdxOut s
  rdIdx := rdIdxOut s
  wrWrap := wrWrap
  rdWrap := rdWrap
  headCarry := headCarry
  tailCarry := tailCarry
  pushViol := pushViol
  popViol := popViol
  headQ := headQOut s
  tailQ := tailQOut s

/-- Agreement of two states on everything the block and the environment's inputs hold: the counters, every
cell, the initialised bit and the coming stimuli. The record of the outputs may differ. -/
def SameBlock (s t : State.Of c) : Prop :=
  s.head = t.head ∧ s.tail = t.tail ∧ (∀ i, Store.read s.store i = Store.read t.store i) ∧
    s.initialised = t.initialised ∧ s.inputs = t.inputs

/-- R21: two states that agree on the low `b` bits of both counters, on every cell and on the coming
stimuli. -/
def SameLow (s t : State.Of c) : Prop :=
  idx s.head = idx t.head ∧ idx s.tail = idx t.tail ∧
    (∀ i, Store.read s.store i = Store.read t.store i) ∧ s.inputs = t.inputs

/-- R21: agreement of two sets of outputs on every port but `head_q`, `tail_q`, `head_carry` and
`tail_carry`. -/
def Outputs.AgreeLow (o p : Outputs c) : Prop :=
  o.rdata = p.rdata ∧ o.empty = p.empty ∧ o.full = p.full ∧ o.length = p.length ∧
    o.wrIdx = p.wrIdx ∧ o.rdIdx = p.rdIdx ∧ o.wrWrap = p.wrWrap ∧ o.rdWrap = p.rdWrap ∧
    o.pushViol = p.pushViol ∧ o.popViol = p.popViol

/-- U9: the checked mode a model may offer: a violating cycle is a fault of the model. The unchecked
`stepIn` stays the definition of the hardware. -/
def stepCheckedIn (s : State.Of c) : Result c :=
  match pushViolOut (presentCommand s) s, popViolOut (presentCommand s) s with
  | false, false => stepIn s
  | true, false => .fault .pushWhenFull
  | false, true => .fault .popWhenEmpty
  | true, true => .fault .pushWhenFullAndPopWhenEmpty

/-- U9: the machine whose step is the checked one. -/
def coreChecked (c : Config) : Host.Core where
  State := State.Of c
  Fault := Fault
  Refusal := Refusal
  step := stepCheckedIn
  reset := State.Of.reset c

/-- R58: one cycle of an environment that follows the check-then-act protocol: its request expands by the
outputs of the cycle, and the command is performed. -/
def attempt (r : Request) (s : State.Of c) : State.Of c :=
  match execIn (expand r s) s with
  | .next t => t
  | .fault _ => s
  | .refused _ => s

/-- The state after a list of requests. -/
def attempts : List Request → State.Of c → State.Of c
  | [], s => s
  | r :: rest, s => attempts rest (attempt r s)

/-- The elements whose pushes are accepted while a list of requests is performed, oldest first. -/
def attemptPushed : List Request → State.Of c → List (Elem c)
  | [], _ => []
  | r :: rest, s =>
    ((pushOperand (expand r s)).map (wdataOf c)).toList ++ attemptPushed rest (attempt r s)

/-- The elements returned while a list of requests is performed, oldest first. -/
def attemptReturned : List Request → State.Of c → List (Elem c)
  | [], _ => []
  | r :: rest, s => (attempt r s).ret.toList ++ attemptReturned rest (attempt r s)

/-- Whether a request initialises the block. -/
def requestInitialises (r : Request) : Bool := r == .reset || r == .init

end Sys2Proof.Machine
end

