-- ==== Sys2Proof/Certificates/Slice0/Obligations.lean ====
section
/-! DEFINITION. The statements for the provers. Those about `exec`, `step` and `State` hold of the machine in
the configuration `Config.machine`, of which nothing is known, so they hold whatever the configuration is.
Those about `execIn`, `stepIn`, `cycle` and `State.Of c` are made for every configuration `c`.

The fields `inputs`, `seen`, `ret` and `initialised` are the model's (log entries 4, 5, 6 and 8). A statement
speaks of the outputs of a cycle, and of the element returned in it, through the record `seen` and `ret`. -/

open Sys2Proof Sys2Proof.Machine

/-- R2: the capacity is the largest power of two not exceeding the request, with the rule's examples. -/
def Obligations.CapacityIsRoundedDownToAPowerOfTwo : Prop :=
  ∀ c : Config,
    c.C = 2 ^ c.b ∧ c.C ≤ c.R ∧ (∀ k, 2 ^ k ≤ c.R → 2 ^ k ≤ c.C) ∧
      (c.R = 1 → c.b = 0 ∧ c.C = 1) ∧ (2 ≤ c.R → c.R ≤ 3 → c.C = 2) ∧
      (4 ≤ c.R → c.R ≤ 7 → c.C = 4) ∧ (c.R = 100 → c.b = 6 ∧ c.C = 64) ∧
      (128 ≤ c.R → c.R ≤ 255 → c.b = 7 ∧ c.C = 128)

/-- R5, R102: the build-time check refuses exactly the configurations that break a constraint, and every
configuration there is meets the width constraint in all its forms. -/
def Obligations.BuildRefusesExactlyTheBadConfigurations : Prop :=
  (∀ (R W DW : Nat) (head tail : BitVec W) (cell : Nat → BitVec DW),
    (Config.build? R W DW head tail cell = none ↔ R = 0 ∨ DW = 0 ∨ W ≤ Nat.log2 R) ∧
      ∀ c, Config.build? R W DW head tail cell = some c → c.R = R ∧ c.W = W ∧ c.DW = DW) ∧
    ∀ c : Config, 1 ≤ c.R ∧ 1 ≤ c.DW ∧ c.b < c.W ∧ c.b + 1 ≤ c.W ∧ c.C < 2 ^ c.W ∧ c.C ≤ 2 ^ (c.W - 1)

/-- R3, R31: masking a counter takes its low `b` bits, which is its value modulo `C`; no other index can
be formed, and the indices are visited in cyclic order. -/
def Obligations.MaskingTakesTheCounterModuloTheCapacity : Prop :=
  ∀ c : Config,
    (∀ n : Nat, n &&& c.MASK = n % c.C) ∧
      ∀ v : Counter c,
        (idx v).toNat = v.toNat &&& c.MASK ∧ (idx v).toNat = v.toNat % c.C ∧
          idx v = v.extractLsb' 0 c.b ∧ (idx v).toNat ≤ c.MASK ∧
          (idx (succ v)).toNat = ((idx v).toNat + 1) % c.C

/-- R19: the value of every output in the cycle after a RESET or an INIT, in every configuration. -/
def Obligations.EveryOutputAfterResetOrInit : Prop :=
  ∀ (c : Config) (i : Instr) (s : State.Of c), i = .reset ∨ i = .init →
    ∃ t, execIn i s = .next t ∧ t.head = 0 ∧ t.tail = 0 ∧
      (∀ n, Store.read t.store n = Store.read s.store n) ∧
      lengthOut t = 0 ∧ emptyOut t = true ∧ fullOut t = decide (c.C = 1) ∧
      rdataOut t = Store.read s.store 0 ∧ wrIdxOut t = 0 ∧ rdIdxOut t = 0 ∧
      headQOut t = 0 ∧ tailQOut t = 0 ∧
      outputs .nop t = shown t false false false false false false

/-- R19: `State.reset` is a state right after RESET, and its record is what the outputs show then. The
state of the inputs and the record being at these values is the model's choice (log entries 4, 5, 6). -/
def Obligations.ResetStateShowsTheOutputsAfterReset : Prop :=
  State.reset.seen = outputs .nop State.reset ∧ State.reset.head = 0 ∧ State.reset.tail = 0 ∧
    (∀ n, Store.read State.reset.store n = Config.machine.powerOnCell n) ∧
    ∃ t, exec .reset State.reset = .next t ∧ SameBlock t State.reset

/-- R65: RESET, from any state. -/
def Obligations.ResetZeroesTheCountersAndKeepsTheStore : Prop :=
  (∀ (c : Config) (st : Stimulus c), decode st = .reset ↔ st.rst = true) ∧
    ∀ s : State, ∃ t, exec .reset s = .next t ∧
      t.head = 0 ∧ t.tail = 0 ∧ (∀ n, Store.read t.store n = Store.read s.store n) ∧
      t.seen = shown s false false false false false false ∧ t.ret = none ∧
      t.initialised = true ∧ t.inputs = s.inputs ∧
      lengthOut t = 0 ∧ emptyOut t = true ∧ fullOut t = decide (Config.machine.C = 1) ∧
      wrIdxOut t = 0 ∧ rdIdxOut t = 0 ∧ headQOut t = 0 ∧ tailQOut t = 0

/-- R66: INIT has exactly the state change of RESET, from any state. -/
def Obligations.InitHasTheStateChangeOfReset : Prop :=
  (∀ (c : Config) (st : Stimulus c), decode st = .init ↔ st.rst = false ∧ st.init = true) ∧
    ∀ s : State, ∃ t, exec .init s = .next t ∧ exec .reset s = .next t ∧
      t.head = 0 ∧ t.tail = 0 ∧ (∀ n, Store.read t.store n = Store.read s.store n) ∧
      t.seen = shown s false false false false false false ∧ t.ret = none ∧
      t.initialised = true ∧ t.inputs = s.inputs ∧
      emptyOut t = true ∧ (fullOut t = true ↔ Config.machine.C = 1) ∧
      rdataOut t = Store.read s.store 0

/-- R67: NOP keeps the counters and the cells, and every output of the next cycle is as in this one. -/
def Obligations.NopChangesNothingAndKeepsEveryOutput : Prop :=
  (∀ (c : Config) (st : Stimulus c), decode st = .nop ↔ st.cw = 0b0000#4) ∧
    ∀ s : State, ∃ t, exec .nop s = .next t ∧ SameBlock t s ∧
      t.seen = shown s false false false false false false ∧ t.ret = none ∧
      outputs .nop t = outputs .nop s

/-- R70: PUSH, in every state. -/
def Obligations.PushWritesTheCellAtHeadAndAdvancesHead : Prop :=
  (∀ (c : Config) (st : Stimulus c) (v : Nat),
    decode st = .push v ↔ st.cw = 0b0001#4 ∧ v = st.wdata.toNat) ∧
    ∀ (v : Nat) (s : State), ∃ t, exec (.push v) s = .next t ∧
      t.head.toNat = (s.head.toNat + 1) % 2 ^ Config.machine.W ∧ t.tail = s.tail ∧
      writeCell s = s.head.toNat % Config.machine.C ∧
      Store.read t.store (writeCell s) = BitVec.ofNat Config.machine.DW v ∧
      (∀ n, n ≠ writeCell s → Store.read t.store n = Store.read s.store n) ∧
      t.initialised = s.initialised ∧ t.inputs = s.inputs ∧ t.ret = none ∧
      t.seen = shown s
        (decide (s.head.toNat % Config.machine.C = Config.machine.C - 1)) false
        (decide (s.head.toNat = 2 ^ Config.machine.W - 1)) false (fullOut s) false ∧
      (lengthOut t).toNat = ((lengthOut s).toNat + 1) % Config.machine.C ∧
      (lengthOut t).toNat = (if fullOut s then 0 else (lengthOut s).toNat + 1) ∧
      emptyOut t = fullOut s ∧
      (fullOut t = true ↔ (lengthOut t).toNat = Config.machine.C - 1) ∧
      rdataOut t = (if emptyOut s then BitVec.ofNat Config.machine.DW v else rdataOut s)

/-- R71: POP, in every state. -/
def Obligations.PopReturnsTheCellAtTailAndAdvancesTail : Prop :=
  (∀ (c : Config) (st : Stimulus c), decode st = .pop ↔ st.cw = 0b0010#4) ∧
    ∀ s : State, ∃ t, exec .pop s = .next t ∧
      t.ret = some (Store.read s.store (s.tail.toNat % Config.machine.C)) ∧
      t.tail.toNat = (s.tail.toNat + 1) % 2 ^ Config.machine.W ∧ t.head = s.head ∧
      (∀ n, Store.read t.store n = Store.read s.store n) ∧
      t.initialised = s.initialised ∧ t.inputs = s.inputs ∧
      t.seen = shown s
        false (decide (s.tail.toNat % Config.machine.C = Config.machine.C - 1))
        false (decide (s.tail.toNat = 2 ^ Config.machine.W - 1)) false (emptyOut s) ∧
      ((lengthOut t).toNat : Int) = ((lengthOut s).toNat - 1 : Int) % Config.machine.C ∧
      (lengthOut t).toNat
        = (if emptyOut s then Config.machine.C - 1 else (lengthOut s).toNat - 1) ∧
      fullOut t = emptyOut s ∧
      (emptyOut t = true ↔ (lengthOut t).toNat = 0) ∧
      rdataOut t = Store.read s.store ((s.tail.toNat + 1) % Config.machine.C)

/-- R72: PUSHPOP, in every state: both halves on the state before the edge. -/
def Obligations.PushpopDoesBothHalvesOnTheStateBefore : Prop :=
  (∀ (c : Config) (st : Stimulus c) (v : Nat),
    decode st = .pushpop v ↔ st.cw = 0b0011#4 ∧ v = st.wdata.toNat) ∧
    ∀ (v : Nat) (s : State), ∃ t, exec (.pushpop v) s = .next t ∧
      t.ret = some (Store.read s.store (s.tail.toNat % Config.machine.C)) ∧
      t.head.toNat = (s.head.toNat + 1) % 2 ^ Config.machine.W ∧
      t.tail.toNat = (s.tail.toNat + 1) % 2 ^ Config.machine.W ∧
      writeCell s = s.head.toNat % Config.machine.C ∧
      Store.read t.store (writeCell s) = BitVec.ofNat Config.machine.DW v ∧
      (∀ n, n ≠ writeCell s → Store.read t.store n = Store.read s.store n) ∧
      t.initialised = s.initialised ∧ t.inputs = s.inputs ∧
      t.seen = shown s
        (decide (s.head.toNat % Config.machine.C = Config.machine.C - 1))
        (decide (s.tail.toNat % Config.machine.C = Config.machine.C - 1))
        (decide (s.head.toNat = 2 ^ Config.machine.W - 1))
        (decide (s.tail.toNat = 2 ^ Config.machine.W - 1)) (fullOut s) (emptyOut s) ∧
      lengthOut t = lengthOut s ∧ emptyOut t = emptyOut s ∧ fullOut t = fullOut s

/-- R80: output `length` is the occupancy, in each of its equivalent forms, and the read changes nothing
else. -/
def Obligations.LengthIsTheMaskedCounterDifference : Prop :=
  (∀ s : State, ∃ t, exec .length s = .next t ∧
    t = s.setSeen { s.seen with length := t.seen.length } ∧
    t.seen.length.toNat =
      (s.head.toNat + 2 ^ Config.machine.W - s.tail.toNat) % 2 ^ Config.machine.W
        &&& Config.machine.MASK ∧
    (t.seen.length.toNat : Int) = ((s.head.toNat : Int) - s.tail.toNat) % Config.machine.C ∧
    (t.seen.length.toNat : Int)
      = (((idx s.head).toNat : Int) - (idx s.tail).toNat) % Config.machine.C ∧
    t.seen.length.toNat ≤ Config.machine.C - 1 ∧
    t.seen.length.getLsbD Config.machine.b = false) ∧
    ∀ (c : Config) (s : State.Of c), c.C = 1 → (lengthOut s).toNat = 0

/-- R81: output `empty` compares the masked indices. -/
def Obligations.EmptyComparesTheMaskedIndices : Prop :=
  (∀ s : State, ∃ t, exec .isEmpty s = .next t ∧
    t = s.setSeen { s.seen with empty := t.seen.empty } ∧
    (t.seen.empty = true ↔ s.head.toNat % Config.machine.C = s.tail.toNat % Config.machine.C) ∧
    (t.seen.empty = true ↔ (lengthOut s).toNat = 0) ∧
    (s.head = 0 → s.tail = 0 → t.seen.empty = true)) ∧
    ∀ (c : Config) (s : State.Of c), c.C = 1 → emptyOut s = true

/-- R82: output `full` reports an occupancy of `C - 1`. -/
def Obligations.FullReportsAnOccupancyOneShortOfTheCapacity : Prop :=
  (∀ s : State, ∃ t, exec .isFull s = .next t ∧
    t = s.setSeen { s.seen with full := t.seen.full } ∧
    (t.seen.full = true ↔ (occupancy s).toNat = Config.machine.C - 1) ∧
    (t.seen.full = true ↔ idx (succ s.head) = idx s.tail) ∧
    (s.head = 0 → s.tail = 0 → (t.seen.full = true ↔ Config.machine.C = 1)) ∧
    (t.seen.full = true ∧ emptyOut s = true ↔ Config.machine.C = 1)) ∧
    ∀ (c : Config) (s : State.Of c),
      (c.C = 1 → fullOut s = true) ∧
        (c.C = 2 → (fullOut s = true ↔ (lengthOut s).toNat = 1))

/-- R83: output `rdata` is the cell at `idx(tail)`: the oldest queued element, or, when the buffer is
empty, the cell the next push will write. -/
def Obligations.RdataShowsTheCellAtTail : Prop :=
  (∀ s : State, ∃ t, exec .rdata s = .next t ∧
    t = s.setSeen { s.seen with rdata := t.seen.rdata } ∧
    t.seen.rdata = Store.read s.store (s.tail.toNat % Config.machine.C) ∧
    (emptyOut s = true → t.seen.rdata = Store.read s.store (writeCell s))) ∧
    ∀ (c : Config) (s : State.Of c), emptyOut s = false → (queue s).head? = some (rdataOut s)

/-- R84, R85: the masked pointers: `wr_idx` is the cell the next push writes, `rd_idx` the cell `rdata` shows
and the next pop returns. -/
def Obligations.IndexOutputsAreTheMaskedCounters : Prop :=
  ∀ s : State,
    (∃ t, exec .wrIdx s = .next t ∧ t = s.setSeen { s.seen with wrIdx := t.seen.wrIdx } ∧
      t.seen.wrIdx.toNat = s.head.toNat &&& Config.machine.MASK ∧
      t.seen.wrIdx = s.head.extractLsb' 0 Config.machine.b ∧
      t.seen.wrIdx.toNat ≤ Config.machine.C - 1 ∧ (s.head = 0 → t.seen.wrIdx = 0) ∧
      t.seen.wrIdx.toNat = writeCell s ∧
      ∀ v, ∃ u, exec (.push v) s = .next u ∧
        Store.read u.store t.seen.wrIdx.toNat = BitVec.ofNat Config.machine.DW v ∧
        ∀ n, n ≠ t.seen.wrIdx.toNat → Store.read u.store n = Store.read s.store n) ∧
    ∃ t, exec .rdIdx s = .next t ∧ t = s.setSeen { s.seen with rdIdx := t.seen.rdIdx } ∧
      t.seen.rdIdx.toNat = s.tail.toNat &&& Config.machine.MASK ∧
      t.seen.rdIdx = s.tail.extractLsb' 0 Config.machine.b ∧
      t.seen.rdIdx.toNat ≤ Config.machine.C - 1 ∧ (s.tail = 0 → t.seen.rdIdx = 0) ∧
      rdataOut s = Store.read s.store t.seen.rdIdx.toNat ∧
      ∃ u, exec .pop s = .next u ∧ u.ret = some (Store.read s.store t.seen.rdIdx.toNat)

/-- R86, R87: the index wraps, read under the command word of the present cycle: 1 exactly in a cycle
whose push, or pop, moves its index from `C - 1` to 0. -/
def Obligations.WrapOutputsFlagTheIndexWrap : Prop :=
  (∀ s : State,
    (∃ t, exec .wrWrap s = .next t ∧ t = s.setSeen { s.seen with wrWrap := t.seen.wrWrap } ∧
      (t.seen.wrWrap = true ↔
        (s.present.push = true ∧ s.present.rst = false ∧ s.present.init = false) ∧
          s.head.toNat % Config.machine.C = Config.machine.C - 1)) ∧
    ∃ t, exec .rdWrap s = .next t ∧ t = s.setSeen { s.seen with rdWrap := t.seen.rdWrap } ∧
      (t.seen.rdWrap = true ↔
        (s.present.pop = true ∧ s.present.rst = false ∧ s.present.init = false) ∧
          s.tail.toNat % Config.machine.C = Config.machine.C - 1)) ∧
    ∀ (c : Config) (s : State.Of c),
      (wrWrapOut (presentCommand s) s = true → (wrIdxOut (cycle s)).toNat = 0) ∧
      (rdWrapOut (presentCommand s) s = true → (rdIdxOut (cycle s)).toNat = 0) ∧
      (c.C = 1 → wrWrapOut (presentCommand s) s = pushAccepted (presentCommand s) ∧
        rdWrapOut (presentCommand s) s = popAccepted (presentCommand s))

/-- R88, R89: the counter carries, read under the command word of the present cycle: 1 exactly in a cycle
whose push, or pop, wraps its counter from `2^W - 1` to 0. A carry comes with an index wrap and not the
reverse: of the `2^W` counter values, `2^(W-b)` wrap the index. -/
def Obligations.CarryOutputsFlagTheCounterWrap : Prop :=
  (∀ s : State,
    (∃ t, exec .headCarry s = .next t ∧
      t = s.setSeen { s.seen with headCarry := t.seen.headCarry } ∧
      (t.seen.headCarry = true ↔
        (s.present.push = true ∧ s.present.rst = false ∧ s.present.init = false) ∧
          s.head.toNat = 2 ^ Config.machine.W - 1)) ∧
    ∃ t, exec .tailCarry s = .next t ∧
      t = s.setSeen { s.seen with tailCarry := t.seen.tailCarry } ∧
      (t.seen.tailCarry = true ↔
        (s.present.pop = true ∧ s.present.rst = false ∧ s.present.init = false) ∧
          s.tail.toNat = 2 ^ Config.machine.W - 1)) ∧
    (∀ (c : Config) (s : State.Of c),
      (headCarryOut (presentCommand s) s = true →
        (cycle s).head = 0 ∧ wrWrapOut (presentCommand s) s = true) ∧
      (tailCarryOut (presentCommand s) s = true →
        (cycle s).tail = 0 ∧ rdWrapOut (presentCommand s) s = true)) ∧
    ∀ c : Config,
      (∃ s : State.Of c,
        wrWrapOut (presentCommand s) s = true ∧ headCarryOut (presentCommand s) s = false ∧
          rdWrapOut (presentCommand s) s = true ∧ tailCarryOut (presentCommand s) s = false) ∧
      (List.range (2 ^ c.W)).countP (fun n => n % c.C == c.C - 1) = 2 ^ (c.W - c.b)

/-- R90, R91, R108: the violation outputs, read under the command word of the present cycle. They
suppress nothing: the violating command is still performed. They are 0 in every cycle of a trace exactly
when the trace honours the protocol. -/
def Obligations.ViolationOutputsFlagTheCycleAndSuppressNothing : Prop :=
  (∀ s : State,
    (∃ t, exec .pushViol s = .next t ∧
      t = s.setSeen { s.seen with pushViol := t.seen.pushViol } ∧
      (t.seen.pushViol = true ↔
        (s.present.push = true ∧ s.present.rst = false ∧ s.present.init = false) ∧
          fullOut s = true)) ∧
    ∃ t, exec .popViol s = .next t ∧
      t = s.setSeen { s.seen with popViol := t.seen.popViol } ∧
      (t.seen.popViol = true ↔
        (s.present.pop = true ∧ s.present.rst = false ∧ s.present.init = false) ∧
          emptyOut s = true)) ∧
    ∀ (c : Config) (s : State.Of c),
      (pushViolOut (presentCommand s) s = true →
        (cycle s).head = s.head + 1 ∧
          Store.read (cycle s).store (wrIdxOut s).toNat = s.present.wdata) ∧
      (popViolOut (presentCommand s) s = true →
        (cycle s).tail = s.tail + 1 ∧ (cycle s).ret = some (rdataOut s)) ∧
      (c.C = 1 → pushViolOut (presentCommand s) s = pushAccepted (presentCommand s) ∧
        popViolOut (presentCommand s) s = popAccepted (presentCommand s)) ∧
      ∀ k, noViolationSeen k s = honouring k s

/-- R92, R93: the counters are observable, and reading one changes nothing else. -/
def Obligations.CounterOutputsShowTheCounters : Prop :=
  ∀ s : State,
    (∃ t, exec .headQ s = .next t ∧ t = s.setSeen { s.seen with headQ := t.seen.headQ } ∧
      t.seen.headQ.toNat = s.head.toNat ∧ t.seen.headQ.toNat < 2 ^ Config.machine.W) ∧
    ∃ t, exec .tailQ s = .next t ∧ t = s.setSeen { s.seen with tailQ := t.seen.tailQ } ∧
      t.seen.tailQ.toNat = s.tail.toNat ∧ t.seen.tailQ.toNat < 2 ^ Config.machine.W

/-- R52: the decoder selects the first matching row of the table, and accepts a push or a pop exactly
when its bit is 1 and neither `rst` nor `init` is. With one of those, no cell is written, no counter is
incremented and no element is returned. -/
def Obligations.DecodeSelectsTheFirstMatchingRow : Prop :=
  ∀ (c : Config) (st : Stimulus c),
    (∃ row, rowOf st.cw = some row ∧ row.mnemonic = (decode st).mnemonic) ∧
      (pushAccepted (decode st) = true ↔ st.push = true ∧ st.rst = false ∧ st.init = false) ∧
      (popAccepted (decode st) = true ↔ st.pop = true ∧ st.rst = false ∧ st.init = false) ∧
      ∀ s : State.Of c, st.rst = true ∨ st.init = true →
        (cycle (s.withPresent st)).head = 0 ∧ (cycle (s.withPresent st)).tail = 0 ∧
          (∀ n, Store.read (cycle (s.withPresent st)).store n = Store.read s.store n) ∧
          (cycle (s.withPresent st)).ret = none

/-- R52, R53: words written out from the spec's encoding decode to the commands they stand for. -/
def Obligations.WrittenOutWordsDecodeToTheirCommands : Prop :=
  ∀ c : Config, c.DW = 8 →
    decode (Stimulus.ofCw (c := c) 0b1000#4 0) = .reset ∧
    decode (Stimulus.ofCw (c := c) 0b1011#4 0) = .reset ∧
    decode (Stimulus.ofCw (c := c) 0b0111#4 0) = .init ∧
    decode (Stimulus.ofCw (c := c) 0b0000#4 0) = .nop ∧
    decode (Stimulus.ofCw (c := c) 0b0001#4 (BitVec.ofNat c.DW 0x5A)) = .push 0x5A ∧
    decode (Stimulus.ofCw (c := c) 0b0010#4 (BitVec.ofNat c.DW 0xEE)) = .pop ∧
    decode (Stimulus.ofCw (c := c) 0b0011#4 (BitVec.ofNat c.DW 0xA2)) = .pushpop 0xA2

/-- R53: the stimulus word is `CW ++ wdata`, nothing of it is lost, and at `DW = 8` the canonical words
are the rule's. -/
def Obligations.StimulusWordIsCommandWordThenData : Prop :=
  ∀ c : Config,
    (∀ st : Stimulus c, st.word.toNat = st.cw.toNat * 2 ^ c.DW + st.wdata.toNat ∧
      Stimulus.ofWord st.word = st) ∧
    (∀ sw : BitVec (4 + c.DW), (Stimulus.ofWord sw : Stimulus c).word = sw) ∧
    (c.DW = 8 →
      (encode c .reset).map (fun st => st.word.toNat) = some 0x800 ∧
      (encode c .init).map (fun st => st.word.toNat) = some 0x400 ∧
      (encode c .nop).map (fun st => st.word.toNat) = some 0x000 ∧
      (encode c .pop).map (fun st => st.word.toNat) = some 0x200 ∧
      ∀ v, v < 256 →
        (encode c (.push v)).map (fun st => st.word.toNat) = some (0x100 + v) ∧
        (encode c (.pushpop v)).map (fun st => st.word.toNat) = some (0x300 + v))

/-- R54: `wdata` has no effect in a cycle in which no push is accepted. -/
def Obligations.WdataIsIgnoredWithoutAnAcceptedPush : Prop :=
  ∀ (c : Config) (s : State.Of c) (st : Stimulus c) (w : Elem c),
    pushAccepted (decode st) = false →
      stepIn (s.withPresent { st with wdata := w }) = stepIn (s.withPresent st)

/-- R56: of the 16 command words 8 are RESET, 4 are INIT, and one each is NOP, PUSH, POP and PUSHPOP;
every redundant word behaves exactly as the canonical one. -/
def Obligations.AllSixteenCommandWordsAreDefined : Prop :=
  ∀ c : Config,
    (((List.range 16).filter
        (fun n => decode (Stimulus.ofCw (c := c) (BitVec.ofNat 4 n) 0) == .reset)).length = 8 ∧
      ((List.range 16).filter
        (fun n => decode (Stimulus.ofCw (c := c) (BitVec.ofNat 4 n) 0) == .init)).length = 4 ∧
      ((List.range 16).filter
        (fun n => decode (Stimulus.ofCw (c := c) (BitVec.ofNat 4 n) 0) == .nop)).length = 1 ∧
      ((List.range 16).filter
        (fun n => decode (Stimulus.ofCw (c := c) (BitVec.ofNat 4 n) 0) == .push 0)).length = 1 ∧
      ((List.range 16).filter
        (fun n => decode (Stimulus.ofCw (c := c) (BitVec.ofNat 4 n) 0) == .pop)).length = 1 ∧
      ((List.range 16).filter
        (fun n => decode (Stimulus.ofCw (c := c) (BitVec.ofNat 4 n) 0) == .pushpop 0)).length = 1) ∧
    ∀ (s : State.Of c) (st : Stimulus c),
      (st.rst = true →
        stepIn (s.withPresent st) = stepIn (s.withPresent (Stimulus.ofCw 0b1000#4 st.wdata))) ∧
      (st.rst = false → st.init = true →
        stepIn (s.withPresent st) = stepIn (s.withPresent (Stimulus.ofCw 0b0100#4 st.wdata)))

/-- R53, R56, R58: decoding the encoding of a well-formed command gives it back, with every operand;
every stimulus has the command of its canonical stimulus; and no output read has a command word (R57). -/
def Obligations.DecodeOfEncodeIsTheCommand : Prop :=
  ∀ c : Config,
    (∀ i : Instr, i.wellFormed c = true → i.isCommand = true →
      ∃ st, encode c i = some st ∧ decode st = i ∧ (pushAccepted i = false → st.wdata = 0)) ∧
    (∀ st : Stimulus c, (decode st).wellFormed c = true ∧ (decode st).isCommand = true ∧
      ∃ st', encode c (decode st) = some st' ∧ decode st' = decode st) ∧
    ∀ i : Instr, i.isCommand = false → encode c i = none

/-- R39, R125: a step performs the command its stimulus decodes to, at the state with the next stimulus
on the ports. With no stimulus left, the command is NOP, which is the model's choice (log entry 4). -/
def Obligations.StepRunsTheDecodedCommand : Prop :=
  ∀ s : State,
    (∀ st rest, s.inputs = st :: rest → step s = exec (decode st) (s.setInputs rest)) ∧
      (s.inputs = [] → step s = exec .nop s)

/-- A table word stored where the step fetches is the instruction the very next step runs (log entries 9
and 12). -/
def Obligations.StepRunsTheFetchedTableWord : Prop :=
  ∀ (s : State) (nbits w : Nat) (i : Instr), decodeTableWord nbits w = some i →
    step (s.withFetchWord nbits w) = exec i s.advance

/-- R100, R126: in every state every command word yields a next state, and so does every run. -/
def Obligations.EveryCycleHasANextState : Prop :=
  ∀ (c : Config) (s : State.Of c),
    (∀ st : Stimulus c, ∃ t, stepIn (s.withPresent st) = .next t) ∧
      ∀ k, (coreIn c).run k s = .next (after k s)

/-- The record of the outputs and the canonical form of the store, at reset (log entries 5 and 14). -/
def Obligations.ResetStateMeetsTheInvariant : Prop := Inv State.reset

/-- Every step keeps the store in its canonical form, with indices below `C` (R14, R33), and leaves a record
of the outputs that meets every equivalence of R96. The canonical form and the record are the model's (log
entries 14 and 5). -/
def Obligations.EveryStepKeepsTheInvariant : Prop :=
  ∀ s t : State, Inv s → step s = .next t → Inv t

/-- R13: between initialisations a counter is the number of accepted pushes, or pops, modulo `2^W`, over
the whole range and past its wrap. The spec marks R13 as derived. -/
def Obligations.CountersCountTheAcceptedPushesAndPops : Prop :=
  ∀ (c : Config) (k : Nat) (s : State.Of c), initialises (presentCommand s) = true →
    quiet k (cycle s) = true →
      (after k (cycle s)).head.toNat = pushCount k (cycle s) % 2 ^ c.W ∧
        (after k (cycle s)).tail.toNat = popCount k (cycle s) % 2 ^ c.W

/-- R20: on a protocol-honouring trace the occupancy is the pushes less the pops, the cells from
`idx(tail)` on hold the pushed and not yet popped elements, oldest first, and cell `idx(head)` holds none
of them. The spec marks R20 as derived. -/
def Obligations.HonouringTraceKeepsTheQueueInTheCells : Prop :=
  ∀ (c : Config) (k : Nat) (s : State.Of c), initialises (presentCommand s) = true →
    quiet k (cycle s) = true → honouring k (cycle s) = true →
      (lengthOut (after k (cycle s))).toNat + popCount k (cycle s) = pushCount k (cycle s) ∧
      (lengthOut (after k (cycle s))).toNat ≤ c.C - 1 ∧
      queue (after k (cycle s)) = (pushedIn k (cycle s)).drop (popCount k (cycle s)) ∧
      ∀ j, j < (lengthOut (after k (cycle s))).toNat →
        idx ((after k (cycle s)).tail + BitVec.ofNat c.W j) ≠ idx (after k (cycle s)).head

/-- R44: on a protocol-honouring trace of any length the values returned are the values pushed, in push
order, none lost and none duplicated: what has not been returned is still queued. -/
def Obligations.FifoOrderIsKeptOnHonouringTraces : Prop :=
  ∀ (c : Config) (k : Nat) (s : State.Of c), initialises (presentCommand s) = true →
    quiet k (cycle s) = true → honouring k (cycle s) = true →
      pushedIn k (cycle s) = returnedIn k (cycle s) ++ queue (after k (cycle s))

/-- R58, R44: a request expands by the outputs of its own cycle as R58's table says. An environment that
writes only requests never violates, and it gets its elements back in order, whatever it requests. -/
def Obligations.CheckThenActProtocolNeverViolatesAndKeepsOrder : Prop :=
  (∀ (c : Config) (r : Request) (s : State.Of c),
    pushViolOut (expand r s) s = false ∧ popViolOut (expand r s) s = false) ∧
    (∀ (c : Config) (v : Nat) (s : State.Of c),
      (fullOut s = false → expand (.tryPush v) s = .push v) ∧
      (fullOut s = true → expand (.tryPush v) s = .nop) ∧
      (emptyOut s = false → expand .tryPop s = .pop) ∧
      (emptyOut s = true → expand .tryPop s = .nop) ∧
      (fullOut s = false → emptyOut s = false → expand (.tryPushPop v) s = .pushpop v) ∧
      (fullOut s = false → emptyOut s = true → expand (.tryPushPop v) s = .push v) ∧
      (fullOut s = true → emptyOut s = false → expand (.tryPushPop v) s = .pop) ∧
      (fullOut s = true → emptyOut s = true → expand (.tryPushPop v) s = .nop) ∧
      expand .reset s = .reset ∧ expand .init s = .init ∧ expand .nop s = .nop) ∧
    ∀ (c : Config) (l : List Request) (s : State.Of c), emptyOut s = true →
      (∀ r ∈ l, requestInitialises r = false) →
        attemptPushed l s = attemptReturned l s ++ queue (attempts l s)

/-- R21: states that agree on the low counter bits and the cells are indistinguishable on every port but
the four that show the upper bits, now and after any sequence of commands. The spec marks R21 as derived.
-/
def Obligations.UpperCounterBitsAreUnobservable : Prop :=
  ∀ (c : Config) (s t : State.Of c), SameLow s t → ∀ k,
    SameLow (after k s) (after k t) ∧ returnedIn k s = returnedIn k t ∧
      ∀ i, (outputs i (after k s)).AgreeLow (outputs i (after k t))

/-- R22: apart from RESET and INIT, a counter is changed by its own side only and never by a value of the
other counter: the new `head` and the cells depend on the old ones, `push` and `wdata` alone, whatever `tail`
is and the consumer requests; the new `tail` depends on the old one and `pop` alone, and the element returned
on the cells too, whatever `head` is and the producer requests. -/
def Obligations.EachCounterHasASingleWriter : Prop :=
  ∀ (c : Config) (s t : State.Of c) (x y : Stimulus c),
    x.rst = false → x.init = false → y.rst = false → y.init = false →
      (x.push = false → (cycle (s.withPresent x)).head = s.head) ∧
      (x.pop = false → (cycle (s.withPresent x)).tail = s.tail) ∧
      (s.head = t.head → x.push = y.push →
        (cycle (s.withPresent x)).head = (cycle (t.withPresent y)).head) ∧
      (s.head = t.head → x.push = y.push → x.wdata = y.wdata →
        (∀ n, Store.read s.store n = Store.read t.store n) →
          ∀ n, Store.read (cycle (s.withPresent x)).store n
            = Store.read (cycle (t.withPresent y)).store n) ∧
      (s.tail = t.tail → x.pop = y.pop →
        (cycle (s.withPresent x)).tail = (cycle (t.withPresent y)).tail) ∧
      (s.tail = t.tail → x.pop = y.pop →
        (∀ n, Store.read s.store n = Store.read t.store n) →
          (cycle (s.withPresent x)).ret = (cycle (t.withPresent y)).ret)

/-- R36: the write port: the cell at `wr_idx` takes `wdata` in a cycle with an accepted push, and in no
cycle does any other cell change. -/
def Obligations.OnlyAnAcceptedPushWritesAndOnlyItsCell : Prop :=
  ∀ (c : Config) (s : State.Of c) (n : Nat),
    Store.read (cycle s).store n =
      if pushAccepted (presentCommand s) = true ∧ n = (wrIdxOut s).toNat then s.present.wdata
      else Store.read s.store n

/-- R38: with the indices equal, a PUSHPOP returns the content before the write, and from the next cycle
on the cell is the element pushed; the indices are equal only when `empty = 1`. -/
def Obligations.PushpopReadsTheCellBeforeItWrites : Prop :=
  ∀ (c : Config) (v : Nat) (s : State.Of c), wrIdxOut s = rdIdxOut s →
    emptyOut s = true ∧ ∃ t, execIn (.pushpop v) s = .next t ∧
      t.ret = some (Store.read s.store (rdIdxOut s).toNat) ∧
      Store.read t.store (rdIdxOut s).toNat = BitVec.ofNat c.DW v

/-- R45, R123: an element pushed into an empty buffer is not visible in its own cycle, and is on `rdata`
from the next one. -/
def Obligations.PushedElementIsVisibleFromTheNextCycle : Prop :=
  ∀ (c : Config) (v : Nat) (s : State.Of c), emptyOut s = true →
    ∃ t, execIn (.push v) s = .next t ∧
      t.seen.empty = true ∧ t.seen.rdata = Store.read s.store (rdIdxOut s).toNat ∧
      rdataOut t = BitVec.ofNat c.DW v ∧
      (1 < c.C → emptyOut t = false ∧ (lengthOut t).toNat = 1)

/-- R73: one PUSHPOP is a POP followed by a PUSH, in every state; and a PUSH followed by a POP, but for
the element returned when the buffer is empty. The spec marks R73 as derived. -/
def Obligations.PushpopIsPopThenPush : Prop :=
  ∀ (c : Config) (v : Nat) (s : State.Of c),
    ∃ t p q p' q', execIn (.pushpop v) s = .next t ∧
      execIn .pop s = .next p ∧ execIn (.push v) p = .next q ∧
      execIn (.push v) s = .next p' ∧ execIn .pop p' = .next q' ∧
      SameBlock t q ∧ t.ret = p.ret ∧ SameBlock t q' ∧
      (emptyOut s = false → t.ret = q'.ret) ∧
      (emptyOut s = true → q'.ret = some (BitVec.ofNat c.DW v))

/-- R74: the first push beyond full writes the sacrificed cell and makes the buffer report empty; it is
flagged in its own cycle only; the next push overwrites the oldest unconsumed element; and `k` pushes
beyond full leave `length = (k - 1) mod C` and the write position `k - 1` cells past the oldest element,
so that each further push overwrites the next oldest. The spec marks R74 as derived. -/
def Obligations.PushWhenFullMakesTheBufferReportEmpty : Prop :=
  (∀ (c : Config) (v w : Nat) (s : State.Of c), 1 < c.C → fullOut s = true →
    ∃ t u, execIn (.push v) s = .next t ∧ execIn (.push w) t = .next u ∧
      t.seen.pushViol = true ∧ u.seen.pushViol = false ∧
      Store.read t.store (wrIdxOut s).toNat = BitVec.ofNat c.DW v ∧
      (∀ j, j < c.C - 1 →
        Store.read t.store (idx (s.tail + BitVec.ofNat c.W j)).toNat
          = Store.read s.store (idx (s.tail + BitVec.ofNat c.W j)).toNat) ∧
      idx t.head = idx t.tail ∧ (lengthOut t).toNat = 0 ∧ emptyOut t = true ∧ fullOut t = false ∧
      Store.read u.store (rdIdxOut s).toNat = BitVec.ofNat c.DW w) ∧
    ∀ (c : Config) (k : Nat) (s : State.Of c), fullOut s = true → 1 ≤ k →
      (∀ i ∈ commands k s, pushAccepted i = true ∧ popAccepted i = false) →
        (lengthOut (after k s)).toNat = (k - 1) % c.C ∧
          idx (after k s).head = idx (s.tail + BitVec.ofNat c.W (k - 1))

/-- R75: a pop on an empty buffer returns the cell both indices name, writes nothing and makes the buffer
report full; `C - 1` further pops return the stale cells in cell order and bring the buffer back to a
consistent empty. The spec marks R75 as derived. -/
def Obligations.PopWhenEmptyMakesTheBufferReportFull : Prop :=
  (∀ (c : Config) (s : State.Of c), 1 < c.C → emptyOut s = true →
    ∃ t, execIn .pop s = .next t ∧ t.seen.popViol = true ∧
      t.ret = some (Store.read s.store (wrIdxOut s).toNat) ∧ t.tail = s.tail + 1 ∧
      t.head = s.head ∧ (∀ n, Store.read t.store n = Store.read s.store n) ∧
      (lengthOut t).toNat = c.C - 1 ∧ fullOut t = true ∧ emptyOut t = false ∧
      ∀ i, popViolOut i t = false) ∧
    ∀ (c : Config) (s : State.Of c), emptyOut s = true → (∀ i ∈ commands c.C s, i = .pop) →
      (lengthOut (after c.C s)).toNat = 0 ∧ idx (after c.C s).tail = idx (after c.C s).head ∧
        returnedIn c.C s = (List.range c.C).map
          (fun j => Store.read s.store (idx (s.tail + BitVec.ofNat c.W j)).toNat)

/-- R76: the corners of PUSHPOP: at empty the pushed element is lost, at full nothing is, between them
there is no violation, and with `C = 1` both halves violate. The spec marks R76 as derived. -/
def Obligations.PushpopAtItsCorners : Prop :=
  ∀ (c : Config) (v : Nat) (s : State.Of c), ∃ t, execIn (.pushpop v) s = .next t ∧
    (1 < c.C → (lengthOut s).toNat = 0 →
      t.seen.popViol = true ∧ t.seen.pushViol = false ∧
      t.ret = some (Store.read s.store (wrIdxOut s).toNat) ∧
      Store.read t.store (rdIdxOut s).toNat = BitVec.ofNat c.DW v ∧
      t.head = s.head + 1 ∧ t.tail = s.tail + 1 ∧
      (lengthOut t).toNat = 0 ∧ emptyOut t = true ∧ queue t = []) ∧
    (1 < c.C → (lengthOut s).toNat = c.C - 1 →
      t.seen.pushViol = true ∧ t.seen.popViol = false ∧
      (lengthOut t).toNat = c.C - 1 ∧ fullOut t = true ∧
      t.ret.toList ++ queue t = queue s ++ [BitVec.ofNat c.DW v]) ∧
    (1 ≤ (lengthOut s).toNat → (lengthOut s).toNat + 2 ≤ c.C →
      t.seen.pushViol = false ∧ t.seen.popViol = false ∧
      t.ret.toList ++ queue t = queue s ++ [BitVec.ofNat c.DW v]) ∧
    (c.C = 1 →
      t.seen.pushViol = true ∧ t.seen.popViol = true ∧ t.ret = some (Store.read s.store 0) ∧
      Store.read t.store 0 = BitVec.ofNat c.DW v ∧ (lengthOut t).toNat = 0)

/-- R77: the wrap of a counter past `2^W - 1` disturbs no index and no status output. The spec marks R77
as derived. -/
def Obligations.CounterWrapIsInvisible : Prop :=
  ∀ (c : Config) (v : Nat) (s : State.Of c),
    (s.head.toNat = 2 ^ c.W - 1 → ∃ t, execIn (.push v) s = .next t ∧ t.head = 0 ∧
      t.seen.headCarry = true ∧ (wrIdxOut s).toNat = c.C - 1 ∧ (wrIdxOut t).toNat = 0 ∧
      (lengthOut t).toNat = ((lengthOut s).toNat + 1) % c.C) ∧
    (s.tail.toNat = 2 ^ c.W - 1 → ∃ t, execIn .pop s = .next t ∧ t.tail = 0 ∧
      t.seen.tailCarry = true ∧ (rdIdxOut s).toNat = c.C - 1 ∧ (rdIdxOut t).toNat = 0 ∧
      ((lengthOut t).toNat : Int) = ((lengthOut s).toNat - 1 : Int) % c.C)

/-- R78: consecutive pushes from empty: the length counts them, and pops return them in order. -/
def Obligations.ConsecutivePushesFromEmptyAreCountedAndReturned : Prop :=
  ∀ (c : Config) (k : Nat) (s : State.Of c), initialises (presentCommand s) = true → k ≤ c.C - 1 →
    (∀ i ∈ commands k (cycle s), pushAccepted i = true ∧ popAccepted i = false) →
      (lengthOut (after k (cycle s))).toNat = k ∧
      (emptyOut (after k (cycle s)) = true ↔ k = 0) ∧
      (fullOut (after k (cycle s)) = true ↔ k = c.C - 1) ∧
      ((∀ i ∈ commands k (after k (cycle s)), i = .pop) →
        returnedIn k (after k (cycle s)) = pushedIn k (cycle s))

/-- R94: reading an output changes nothing of the block, and cycles of NOP leave every state output as it
is. -/
def Obligations.QueriesArePureAndIdempotent : Prop :=
  (∀ (c : Config) (i : Instr) (s : State.Of c), i.isCommand = false →
    ∃ t, execIn i s = .next t ∧ SameBlock t s ∧ t.ret = s.ret ∧
      (∀ j, outputs j t = outputs j s) ∧ execIn i t = .next t) ∧
    ∀ (c : Config) (k : Nat) (s : State.Of c), (∀ i ∈ commands k s, i = .nop) →
      outputs .nop (after k s) = outputs .nop s

/-- R95: the arithmetic laws: the increment and the difference are modulo `2^W`, and reducing modulo
`2^W` first does not change a value modulo `C`. -/
def Obligations.ArithmeticIsModuloTheCounterRange : Prop :=
  ∀ c : Config,
    (∀ x : Int, x % (2 ^ c.W : Nat) % (c.C : Nat) = x % (c.C : Nat)) ∧
    (∀ v : Counter c, (succ v).toNat = (v.toNat + 1) % 2 ^ c.W ∧
      ((succ v).toNat = 0 ↔ v.toNat = 2 ^ c.W - 1) ∧
      (idx (succ v)).toNat = ((idx v).toNat + 1) % c.C) ∧
    ∀ s : State.Of c,
      (((s.head - s.tail : Counter c).toNat &&& c.MASK : Nat) : Int)
          = ((s.head.toNat : Int) - s.tail.toNat) % (c.C : Nat) ∧
        (((s.head - s.tail : Counter c).toNat &&& c.MASK : Nat) : Int)
          = (((idx s.head).toNat : Int) - (idx s.tail).toNat) % (c.C : Nat)

/-- R96: the equivalences between the outputs, in every state and under every command. The spec marks R96
as derived. -/
def Obligations.OutputsAgreeWithEachOther : Prop :=
  ∀ (c : Config) (i : Instr) (s : State.Of c),
    (outputs i s).Coherent ∧
      ((lengthOut s).toNat : Int)
        = (((wrIdxOut s).toNat : Int) - (rdIdxOut s).toNat) % (c.C : Nat) ∧
      wrIdxOut s = (headQOut s).extractLsb' 0 c.b ∧
      rdIdxOut s = (tailQOut s).extractLsb' 0 c.b ∧
      (1 < c.C → ¬(emptyOut s = true ∧ fullOut s = true))

/-- R70, R71, R73, R122: one honest command on the queue: a push appends its element, a pop takes the
oldest, and a PUSHPOP on a buffer that is not empty does both. -/
def Obligations.HonestCommandsActOnTheQueue : Prop :=
  ∀ (c : Config) (v : Nat) (s : State.Of c),
    (fullOut s = false → ∃ t, execIn (.push v) s = .next t ∧
      queue t = queue s ++ [BitVec.ofNat c.DW v]) ∧
    (emptyOut s = false → ∃ t, execIn .pop s = .next t ∧
      queue s = t.ret.toList ++ queue t ∧ t.ret.isSome = true) ∧
    (emptyOut s = false → ∃ t, execIn (.pushpop v) s = .next t ∧
      queue s ++ [BitVec.ofNat c.DW v] = t.ret.toList ++ queue t ∧ t.ret.isSome = true)

/-- R120: a side's check stays true while only the other side acts, and acts honestly: (a) the producer's
check `full = 0` while the length falls by one for each pop, (b) the consumer's check `empty = 0` while
the length rises by one for each push. The spec marks R120 as derived. -/
def Obligations.ACheckStaysValidAgainstTheOtherSide : Prop :=
  ∀ (c : Config) (k : Nat) (s : State.Of c), quiet k s = true → honouring k s = true →
    (fullOut s = false → pushCount k s = 0 →
      fullOut (after k s) = false ∧
        (lengthOut (after k s)).toNat + popCount k s = (lengthOut s).toNat) ∧
    (emptyOut s = false → popCount k s = 0 →
      emptyOut (after k s) = false ∧
        (lengthOut (after k s)).toNat = (lengthOut s).toNat + pushCount k s)

/-- R104, R121: an initialisation overrides a push and a pop of its cycle: no cell changes, nothing is
returned, nothing is flagged, and afterwards the buffer is empty and, when `C > 1`, not full. -/
def Obligations.InitialisationOverridesPushAndPop : Prop :=
  ∀ (c : Config) (s : State.Of c), initialises (presentCommand s) = true →
    (cycle s).head = 0 ∧ (cycle s).tail = 0 ∧
      (∀ n, Store.read (cycle s).store n = Store.read s.store n) ∧ (cycle s).ret = none ∧
      (cycle s).seen.pushViol = false ∧ (cycle s).seen.popViol = false ∧
      (cycle s).seen.wrWrap = false ∧ (cycle s).seen.rdWrap = false ∧
      emptyOut (cycle s) = true ∧ (1 < c.C → fullOut (cycle s) = false)

/-- R116: RESET and INIT work from the power-on state, whatever its draws are, and make the counters
defined; every other command applies its rule to the draws (the model's choice, log entry 3). -/
def Obligations.InitialisationDefinesThePowerOnState : Prop :=
  ∀ (c : Config) (st : Stimulus c),
    let s := (powerOn c).setInputs [st]
    (initialises (decode st) = true → SameBlock (cycle s) (State.Of.reset c)) ∧
      (initialises (decode st) = false →
        (cycle s).initialised = false ∧
        (cycle s).head = (if pushAccepted (decode st) then succ c.powerOnHead else c.powerOnHead) ∧
        (cycle s).tail = (if popAccepted (decode st) then succ c.powerOnTail else c.powerOnTail))

/-- R116: after the first RESET or INIT the counters are defined for ever: whatever two states held
before it, their counters agree from then on under the same inputs, and the initialised bit stays set. -/
def Obligations.CountersAreDefinedForEverAfterInitialisation : Prop :=
  ∀ (c : Config) (k : Nat) (s t : State.Of c), s.inputs = t.inputs →
    (after k s).initialised = (s.initialised || (commands k s).any initialises) ∧
      ((commands k s).any initialises = true →
        (after k s).head = (after k t).head ∧ (after k s).tail = (after k t).tail)

/-- spec/93_implementation_defined.md U9: the checked mode faults exactly on the runs that break the
protocol, and is the unchecked machine on the others. -/
def Obligations.CheckedModeFaultsExactlyOnViolations : Prop :=
  ∀ (c : Config) (k : Nat) (s : State.Of c),
    (honouring k s = true → (coreChecked c).run k s = .next (after k s)) ∧
      (honouring k s = false → ∃ f : Fault, (coreChecked c).run k s = .fault f)

/-- R10, R18: the two counters and the store are all that a cycle reads: states that agree on them, whatever
their initialised bit and their environment's record hold, show the same outputs under every command and have
the same counters, store, outputs and returned element after a cycle of the same stimulus. That the state of
the host's form also holds the environment's side is the model's choice (log entry 21). -/
def Obligations.CountersAndStoreAreTheWholeStateOfTheBlock : Prop :=
  ∀ (c : Config) (s t : State.Of c), s.head = t.head → s.tail = t.tail → s.store = t.store →
    (∀ i, outputs i s = outputs i t) ∧
      ∀ st : Stimulus c,
        (cycle (s.withPresent st)).head = (cycle (t.withPresent st)).head ∧
          (cycle (s.withPresent st)).tail = (cycle (t.withPresent st)).tail ∧
          (cycle (s.withPresent st)).store = (cycle (t.withPresent st)).store ∧
          (cycle (s.withPresent st)).seen = (cycle (t.withPresent st)).seen ∧
          (cycle (s.withPresent st)).ret = (cycle (t.withPresent st)).ret
end

