-- ==== Sys2Proof/Laws/Index.lean ====
section
/-! SUPPORT. Counters, indices and the occupancy as natural numbers (spec/42_status.md R95): `C` divides
`2^W`, so masking is reduction modulo `C`, and every index and status is a function of `idx(head)` and
`idx(tail)`. -/

namespace Sys2Proof.Machine

variable {c : Config}

theorem C_pos (c : Config) : 0 < c.C := Nat.two_pow_pos _

theorem C_dvd (c : Config) : c.C ∣ 2 ^ c.W := Nat.pow_dvd_pow 2 (Nat.le_of_lt c.W_wide)

theorem C_lt (c : Config) : c.C < 2 ^ c.W := Nat.pow_lt_pow_right (by omega) c.W_wide

theorem mask_toNat (c : Config) : (mask c).toNat = c.MASK := by
  have := C_lt c
  simp only [mask, BitVec.toNat_ofNat]
  exact Nat.mod_eq_of_lt (by unfold Config.MASK; omega)

theorem and_MASK (c : Config) (n : Nat) : n &&& c.MASK = n % c.C := Nat.and_two_pow_sub_one_eq_mod n c.b

/-- Reducing modulo the counter range first does not change a value modulo `C`. -/
theorem mod_mod_C (c : Config) (n : Nat) : n % 2 ^ c.W % c.C = n % c.C :=
  Nat.mod_mod_of_dvd n (C_dvd c)

theorem masked_toNat (v : Counter c) : ((v &&& mask c).setWidth c.b : Index c).toNat = v.toNat % c.C := by
  rw [BitVec.toNat_setWidth, BitVec.toNat_and, mask_toNat, and_MASK]
  exact Nat.mod_eq_of_lt (Nat.mod_lt _ (C_pos c))

@[simp] theorem idx_toNat (v : Counter c) : (idx v).toNat = v.toNat % c.C := masked_toNat v

theorem idx_lt (v : Counter c) : (idx v).toNat < c.C := (idx v).isLt

theorem idx_eq_iff (v w : Counter c) : idx v = idx w ↔ v.toNat % c.C = w.toNat % c.C := by
  rw [← BitVec.toNat_inj, idx_toNat, idx_toNat]

theorem succ_toNat (v : Counter c) : (succ v).toNat = (v.toNat + 1) % 2 ^ c.W := by
  simp [succ, BitVec.toNat_add, BitVec.toNat_ofNat]

theorem idx_succ (v : Counter c) : (idx (succ v)).toNat = ((idx v).toNat + 1) % c.C := by
  rw [idx_toNat, succ_toNat, mod_mod_C, idx_toNat, Nat.mod_add_mod]

theorem idx_add (v : Counter c) (j : Nat) :
    (idx (v + BitVec.ofNat c.W j)).toNat = ((idx v).toNat + j) % c.C := by
  rw [idx_toNat, BitVec.toNat_add, BitVec.toNat_ofNat, mod_mod_C, idx_toNat, Nat.mod_add_mod,
    Nat.add_mod, mod_mod_C, ← Nat.add_mod]

theorem lastIndex_toNat (c : Config) : (BitVec.ofNat c.b c.MASK).toNat = c.C - 1 := by
  rw [BitVec.toNat_ofNat]
  exact Nat.mod_eq_of_lt (Nat.sub_lt (C_pos c) Nat.one_pos)

theorem occupancy_toNat (s : State.Of c) :
    (occupancy s).toNat = ((idx s.head).toNat + (c.C - (idx s.tail).toNat)) % c.C := by
  have ht := s.tail.isLt
  have hC := C_pos c
  obtain ⟨q, hq⟩ := C_dvd c
  rw [occupancy, masked_toNat, BitVec.toNat_sub, mod_mod_C, idx_toNat, idx_toNat]
  rw [Nat.add_comm (s.head.toNat % c.C), Nat.add_mod_mod]
  have hlt := Nat.mod_lt s.tail.toNat hC
  have hdm := Nat.div_add_mod s.tail.toNat c.C
  have hle : s.tail.toNat / c.C < q := by
    rw [Nat.div_lt_iff_lt_mul hC, Nat.mul_comm, ← hq]
    exact ht
  have : 2 ^ c.W - s.tail.toNat + s.head.toNat
      = (c.C - s.tail.toNat % c.C + s.head.toNat) + c.C * (q - 1 - s.tail.toNat / c.C) := by
    obtain ⟨d, rfl⟩ : ∃ d, q = s.tail.toNat / c.C + 1 + d := ⟨q - s.tail.toNat / c.C - 1, by omega⟩
    have e1 : s.tail.toNat / c.C + 1 + d - 1 - s.tail.toNat / c.C = d := by omega
    rw [e1, hq]
    have e2 : c.C * (s.tail.toNat / c.C + 1 + d)
        = c.C * (s.tail.toNat / c.C) + c.C + c.C * d := by ring
    omega
  rw [this, Nat.add_mul_mod_self_left]

/-- The occupancy as a difference of the indices, with the case in which the write index has wrapped. -/
theorem occupancy_cases (s : State.Of c) :
    ((idx s.tail).toNat ≤ (idx s.head).toNat ∧
      (occupancy s).toNat = (idx s.head).toNat - (idx s.tail).toNat) ∨
    ((idx s.head).toNat < (idx s.tail).toNat ∧
      (occupancy s).toNat = (idx s.head).toNat + c.C - (idx s.tail).toNat) := by
  have hh := idx_lt s.head
  have ht := idx_lt s.tail
  rw [occupancy_toNat]
  rcases Nat.lt_or_ge (idx s.head).toNat (idx s.tail).toNat with h | h
  · right
    rw [Nat.mod_eq_of_lt (by omega)]
    omega
  · left
    rw [Nat.mod_eq_sub_mod (by omega), Nat.mod_eq_of_lt (by omega)]
    omega

theorem occupancy_lt (s : State.Of c) : (occupancy s).toNat < c.C := (occupancy s).isLt

@[simp] theorem lengthOut_toNat (s : State.Of c) : (lengthOut s).toNat = (occupancy s).toNat := by
  rw [lengthOut, BitVec.toNat_setWidth]
  refine Nat.mod_eq_of_lt (Nat.lt_trans (occupancy_lt s) ?_)
  exact Nat.pow_lt_pow_right (by omega) (by simp [Config.LW])

theorem emptyOut_iff (s : State.Of c) : emptyOut s = true ↔ (occupancy s).toNat = 0 := by
  have hh := idx_lt s.head
  have ht := idx_lt s.tail
  have h := occupancy_cases s
  rw [emptyOut, beq_iff_eq, ← BitVec.toNat_inj]
  omega

theorem fullOut_iff (s : State.Of c) : fullOut s = true ↔ (occupancy s).toNat = c.C - 1 := by
  rw [fullOut, beq_iff_eq, ← BitVec.toNat_inj, lastIndex_toNat]

theorem emptyOut_eq_false_iff (s : State.Of c) : emptyOut s = false ↔ 0 < (occupancy s).toNat := by
  rw [← Bool.not_eq_true, emptyOut_iff]
  omega

theorem fullOut_eq_false_iff (s : State.Of c) :
    fullOut s = false ↔ (occupancy s).toNat + 1 < c.C := by
  have := occupancy_lt s
  rw [← Bool.not_eq_true, fullOut_iff]
  omega

/-- The occupancy depends on the two indices alone. -/
theorem occupancy_congr {s t : State.Of c} (hh : idx s.head = idx t.head)
    (ht : idx s.tail = idx t.tail) : occupancy s = occupancy t := by
  rw [← BitVec.toNat_inj, occupancy_toNat, occupancy_toNat, hh, ht]

/-- An accepted push adds one to the occupancy, modulo `C`. -/
theorem occupancy_push {s t : State.Of c} (hh : t.head = succ s.head) (ht : t.tail = s.tail) :
    (occupancy t).toNat = if (occupancy s).toNat + 1 = c.C then 0 else (occupancy s).toNat + 1 := by
  have h1 := occupancy_cases s
  have h2 := occupancy_cases t
  have h3 := idx_succ s.head
  have h4 := idx_lt s.head
  have h5 := idx_lt s.tail
  rw [← hh] at h3
  rw [ht] at h2
  rcases Nat.lt_or_ge ((idx s.head).toNat + 1) c.C with h | h
  · rw [Nat.mod_eq_of_lt h] at h3
    split <;> omega
  · have e : (idx s.head).toNat + 1 = c.C := by omega
    rw [e, Nat.mod_self] at h3
    split <;> omega

/-- An accepted pop takes one from the occupancy, modulo `C`. -/
theorem occupancy_pop {s t : State.Of c} (hh : t.head = s.head) (ht : t.tail = succ s.tail) :
    (occupancy t).toNat = if (occupancy s).toNat = 0 then c.C - 1 else (occupancy s).toNat - 1 := by
  have h1 := occupancy_cases s
  have h2 := occupancy_cases t
  have h3 := idx_succ s.tail
  have h4 := idx_lt s.head
  have h5 := idx_lt s.tail
  rw [← ht] at h3
  rw [hh] at h2
  rcases Nat.lt_or_ge ((idx s.tail).toNat + 1) c.C with h | h
  · rw [Nat.mod_eq_of_lt h] at h3
    split <;> omega
  · have e : (idx s.tail).toNat + 1 = c.C := by omega
    rw [e, Nat.mod_self] at h3
    split <;> omega

/-- A push and a pop together leave the occupancy as it is. -/
theorem occupancy_pushpop {s t : State.Of c} (hh : t.head = succ s.head) (ht : t.tail = succ s.tail) :
    (occupancy t).toNat = (occupancy s).toNat := by
  have hp := occupancy_push (s := s) (t := s.setHead (succ s.head)) rfl rfl
  have hq := occupancy_pop (s := s.setHead (succ s.head)) (t := t) hh ht
  have := occupancy_lt s
  rw [hq, hp]
  split <;> split <;> omega

end Sys2Proof.Machine
end

