-- ==== Sys2Proof/Laws/State.lean ====
section
/-! SUPPORT. What each field of the state is after each named update: one lemma per field per update. -/

namespace Sys2Proof.Machine

variable {c : Config}

@[simp] theorem setHead_head (s : State.Of c) (v : Counter c) : (s.setHead v).head = v := rfl
@[simp] theorem setHead_tail (s : State.Of c) (v : Counter c) : (s.setHead v).tail = s.tail := rfl
@[simp] theorem setHead_store (s : State.Of c) (v : Counter c) : (s.setHead v).store = s.store := rfl
@[simp] theorem setHead_initialised (s : State.Of c) (v : Counter c) : (s.setHead v).initialised = s.initialised := rfl
@[simp] theorem setHead_inputs (s : State.Of c) (v : Counter c) : (s.setHead v).inputs = s.inputs := rfl
@[simp] theorem setHead_seen (s : State.Of c) (v : Counter c) : (s.setHead v).seen = s.seen := rfl
@[simp] theorem setHead_ret (s : State.Of c) (v : Counter c) : (s.setHead v).ret = s.ret := rfl

@[simp] theorem setTail_head (s : State.Of c) (v : Counter c) : (s.setTail v).head = s.head := rfl
@[simp] theorem setTail_tail (s : State.Of c) (v : Counter c) : (s.setTail v).tail = v := rfl
@[simp] theorem setTail_store (s : State.Of c) (v : Counter c) : (s.setTail v).store = s.store := rfl
@[simp] theorem setTail_initialised (s : State.Of c) (v : Counter c) : (s.setTail v).initialised = s.initialised := rfl
@[simp] theorem setTail_inputs (s : State.Of c) (v : Counter c) : (s.setTail v).inputs = s.inputs := rfl
@[simp] theorem setTail_seen (s : State.Of c) (v : Counter c) : (s.setTail v).seen = s.seen := rfl
@[simp] theorem setTail_ret (s : State.Of c) (v : Counter c) : (s.setTail v).ret = s.ret := rfl

@[simp] theorem setStore_head (s : State.Of c) (m : Store c) : (s.setStore m).head = s.head := rfl
@[simp] theorem setStore_tail (s : State.Of c) (m : Store c) : (s.setStore m).tail = s.tail := rfl
@[simp] theorem setStore_store (s : State.Of c) (m : Store c) : (s.setStore m).store = m := rfl
@[simp] theorem setStore_initialised (s : State.Of c) (m : Store c) : (s.setStore m).initialised = s.initialised := rfl
@[simp] theorem setStore_inputs (s : State.Of c) (m : Store c) : (s.setStore m).inputs = s.inputs := rfl
@[simp] theorem setStore_seen (s : State.Of c) (m : Store c) : (s.setStore m).seen = s.seen := rfl
@[simp] theorem setStore_ret (s : State.Of c) (m : Store c) : (s.setStore m).ret = s.ret := rfl

@[simp] theorem setInitialised_head (s : State.Of c) : (s.setInitialised).head = s.head := rfl
@[simp] theorem setInitialised_tail (s : State.Of c) : (s.setInitialised).tail = s.tail := rfl
@[simp] theorem setInitialised_store (s : State.Of c) : (s.setInitialised).store = s.store := rfl
@[simp] theorem setInitialised_initialised (s : State.Of c) : (s.setInitialised).initialised = true := rfl
@[simp] theorem setInitialised_inputs (s : State.Of c) : (s.setInitialised).inputs = s.inputs := rfl
@[simp] theorem setInitialised_seen (s : State.Of c) : (s.setInitialised).seen = s.seen := rfl
@[simp] theorem setInitialised_ret (s : State.Of c) : (s.setInitialised).ret = s.ret := rfl

@[simp] theorem setInputs_head (s : State.Of c) (l : List (Stimulus c)) : (s.setInputs l).head = s.head := rfl
@[simp] theorem setInputs_tail (s : State.Of c) (l : List (Stimulus c)) : (s.setInputs l).tail = s.tail := rfl
@[simp] theorem setInputs_store (s : State.Of c) (l : List (Stimulus c)) : (s.setInputs l).store = s.store := rfl
@[simp] theorem setInputs_initialised (s : State.Of c) (l : List (Stimulus c)) : (s.setInputs l).initialised = s.initialised := rfl
@[simp] theorem setInputs_inputs (s : State.Of c) (l : List (Stimulus c)) : (s.setInputs l).inputs = l := rfl
@[simp] theorem setInputs_seen (s : State.Of c) (l : List (Stimulus c)) : (s.setInputs l).seen = s.seen := rfl
@[simp] theorem setInputs_ret (s : State.Of c) (l : List (Stimulus c)) : (s.setInputs l).ret = s.ret := rfl

@[simp] theorem setSeen_head (s : State.Of c) (o : Outputs c) : (s.setSeen o).head = s.head := rfl
@[simp] theorem setSeen_tail (s : State.Of c) (o : Outputs c) : (s.setSeen o).tail = s.tail := rfl
@[simp] theorem setSeen_store (s : State.Of c) (o : Outputs c) : (s.setSeen o).store = s.store := rfl
@[simp] theorem setSeen_initialised (s : State.Of c) (o : Outputs c) : (s.setSeen o).initialised = s.initialised := rfl
@[simp] theorem setSeen_inputs (s : State.Of c) (o : Outputs c) : (s.setSeen o).inputs = s.inputs := rfl
@[simp] theorem setSeen_seen (s : State.Of c) (o : Outputs c) : (s.setSeen o).seen = o := rfl
@[simp] theorem setSeen_ret (s : State.Of c) (o : Outputs c) : (s.setSeen o).ret = s.ret := rfl

@[simp] theorem setRet_head (s : State.Of c) (r : Option (Elem c)) : (s.setRet r).head = s.head := rfl
@[simp] theorem setRet_tail (s : State.Of c) (r : Option (Elem c)) : (s.setRet r).tail = s.tail := rfl
@[simp] theorem setRet_store (s : State.Of c) (r : Option (Elem c)) : (s.setRet r).store = s.store := rfl
@[simp] theorem setRet_initialised (s : State.Of c) (r : Option (Elem c)) : (s.setRet r).initialised = s.initialised := rfl
@[simp] theorem setRet_inputs (s : State.Of c) (r : Option (Elem c)) : (s.setRet r).inputs = s.inputs := rfl
@[simp] theorem setRet_seen (s : State.Of c) (r : Option (Elem c)) : (s.setRet r).seen = s.seen := rfl
@[simp] theorem setRet_ret (s : State.Of c) (r : Option (Elem c)) : (s.setRet r).ret = r := rfl

@[simp] theorem advance_head (s : State.Of c) : (s.advance).head = s.head := rfl
@[simp] theorem advance_tail (s : State.Of c) : (s.advance).tail = s.tail := rfl
@[simp] theorem advance_store (s : State.Of c) : (s.advance).store = s.store := rfl
@[simp] theorem advance_initialised (s : State.Of c) : (s.advance).initialised = s.initialised := rfl
@[simp] theorem advance_inputs (s : State.Of c) : (s.advance).inputs = s.inputs.tail := rfl
@[simp] theorem advance_seen (s : State.Of c) : (s.advance).seen = s.seen := rfl
@[simp] theorem advance_ret (s : State.Of c) : (s.advance).ret = s.ret := rfl

@[simp] theorem withPresent_head (s : State.Of c) (st : Stimulus c) : (s.withPresent st).head = s.head := rfl
@[simp] theorem withPresent_tail (s : State.Of c) (st : Stimulus c) : (s.withPresent st).tail = s.tail := rfl
@[simp] theorem withPresent_store (s : State.Of c) (st : Stimulus c) : (s.withPresent st).store = s.store := rfl
@[simp] theorem withPresent_initialised (s : State.Of c) (st : Stimulus c) : (s.withPresent st).initialised = s.initialised := rfl
@[simp] theorem withPresent_inputs (s : State.Of c) (st : Stimulus c) : (s.withPresent st).inputs = st :: s.inputs.tail := rfl
@[simp] theorem withPresent_seen (s : State.Of c) (st : Stimulus c) : (s.withPresent st).seen = s.seen := rfl
@[simp] theorem withPresent_ret (s : State.Of c) (st : Stimulus c) : (s.withPresent st).ret = s.ret := rfl

@[simp] theorem zeroCounters_head (s : State.Of c) : (s.zeroCounters).head = 0 := rfl
@[simp] theorem zeroCounters_tail (s : State.Of c) : (s.zeroCounters).tail = 0 := rfl
@[simp] theorem zeroCounters_store (s : State.Of c) : (s.zeroCounters).store = s.store := rfl
@[simp] theorem zeroCounters_initialised (s : State.Of c) : (s.zeroCounters).initialised = true := rfl
@[simp] theorem zeroCounters_inputs (s : State.Of c) : (s.zeroCounters).inputs = s.inputs := rfl
@[simp] theorem zeroCounters_seen (s : State.Of c) : (s.zeroCounters).seen = s.seen := rfl
@[simp] theorem zeroCounters_ret (s : State.Of c) : (s.zeroCounters).ret = s.ret := rfl

@[simp] theorem capture_head (s : State.Of c) (i : Instr) : (s.capture i).head = s.head := rfl
@[simp] theorem capture_tail (s : State.Of c) (i : Instr) : (s.capture i).tail = s.tail := rfl
@[simp] theorem capture_store (s : State.Of c) (i : Instr) : (s.capture i).store = s.store := rfl
@[simp] theorem capture_initialised (s : State.Of c) (i : Instr) : (s.capture i).initialised = s.initialised := rfl
@[simp] theorem capture_inputs (s : State.Of c) (i : Instr) : (s.capture i).inputs = s.inputs := rfl
@[simp] theorem capture_seen (s : State.Of c) (i : Instr) : (s.capture i).seen = outputs i s := rfl
@[simp] theorem capture_ret (s : State.Of c) (i : Instr) : (s.capture i).ret = returned i s := rfl

@[simp] theorem pushHalf_head (s : State.Of c) (v : Elem c) : (s.pushHalf v).head = succ s.head := rfl
@[simp] theorem pushHalf_tail (s : State.Of c) (v : Elem c) : (s.pushHalf v).tail = s.tail := rfl
@[simp] theorem pushHalf_store (s : State.Of c) (v : Elem c) : (s.pushHalf v).store = Store.write s.store (writeCell s) v := rfl
@[simp] theorem pushHalf_initialised (s : State.Of c) (v : Elem c) : (s.pushHalf v).initialised = s.initialised := rfl
@[simp] theorem pushHalf_inputs (s : State.Of c) (v : Elem c) : (s.pushHalf v).inputs = s.inputs := rfl
@[simp] theorem pushHalf_seen (s : State.Of c) (v : Elem c) : (s.pushHalf v).seen = s.seen := rfl
@[simp] theorem pushHalf_ret (s : State.Of c) (v : Elem c) : (s.pushHalf v).ret = s.ret := rfl

@[simp] theorem popHalf_head (s : State.Of c) : (s.popHalf).head = s.head := rfl
@[simp] theorem popHalf_tail (s : State.Of c) : (s.popHalf).tail = succ s.tail := rfl
@[simp] theorem popHalf_store (s : State.Of c) : (s.popHalf).store = s.store := rfl
@[simp] theorem popHalf_initialised (s : State.Of c) : (s.popHalf).initialised = s.initialised := rfl
@[simp] theorem popHalf_inputs (s : State.Of c) : (s.popHalf).inputs = s.inputs := rfl
@[simp] theorem popHalf_seen (s : State.Of c) : (s.popHalf).seen = s.seen := rfl
@[simp] theorem popHalf_ret (s : State.Of c) : (s.popHalf).ret = s.ret := rfl

@[simp] theorem withPresent_present (s : State.Of c) (st : Stimulus c) :
    (s.withPresent st).present = st := rfl

@[simp] theorem withPresent_advance (s : State.Of c) (st : Stimulus c) :
    (s.withPresent st).advance = s.advance := rfl

/-- Two states are equal when all their fields are. -/
theorem State.Of.eq_of_fields {s t : State.Of c} (h1 : s.head = t.head) (h2 : s.tail = t.tail)
    (h3 : s.store = t.store) (h4 : s.initialised = t.initialised) (h5 : s.inputs = t.inputs)
    (h6 : s.seen = t.seen) (h7 : s.ret = t.ret) : s = t := by
  obtain ⟨⟨_, _, _, _⟩, ⟨_, _, _⟩⟩ := s
  obtain ⟨⟨_, _, _, _⟩, ⟨_, _, _⟩⟩ := t
  simp_all

end Sys2Proof.Machine
end

