-- ==== Sys2Proof/Laws/Store.lean ====
section
/-! SUPPORT. The laws of the element store: a read after a write, in the same cell and in another, and the
canonical form, which every operation keeps and which makes equal contents equal data. -/

namespace Sys2Proof.Machine

variable {c : Config}

@[simp] theorem Store.read_nil (i : Nat) : Store.read ([] : Store c) i = c.powerOnCell i := rfl

theorem Store.read_cons (k : Nat) (x : Elem c) (rest : Store c) (i : Nat) :
    Store.read ((k, x) :: rest) i = if k = i then x else Store.read rest i := rfl

theorem Store.read_erase (m : Store c) (i n : Nat) :
    Store.read (Store.erase m i) n = if n = i then c.powerOnCell n else Store.read m n := by
  induction m with
  | nil => simp [Store.erase]
  | cons e rest ih =>
    obtain ⟨k, x⟩ := e
    simp only [Store.erase]
    split
    · rw [ih, Store.read_cons]
      split <;> [rfl; (rw [if_neg (by omega)])]
    · rw [Store.read_cons, Store.read_cons, ih]
      split <;> [(rw [if_neg (by omega)]); rfl]

theorem Store.read_insert (m : Store c) (i : Nat) (v : Elem c) (hi : ∀ e ∈ m, e.1 ≠ i) (n : Nat) :
    Store.read (Store.insert m i v) n = if n = i then v else Store.read m n := by
  induction m with
  | nil =>
    simp only [Store.insert, Store.read_cons]
    by_cases h : n = i
    · simp [h]
    · rw [if_neg (fun e => h e.symm), if_neg h]
  | cons e rest ih =>
    obtain ⟨k, x⟩ := e
    have hk : k ≠ i := hi (k, x) (by simp)
    simp only [Store.insert]
    split
    · rw [Store.read_cons]
      by_cases h : n = i
      · simp [h]
      · rw [if_neg (fun e => h e.symm), if_neg h]
    · rw [Store.read_cons, ih (fun e he => hi e (List.mem_cons_of_mem _ he)), Store.read_cons]
      split
      · rw [if_neg (by omega)]
      · rfl

theorem Store.mem_erase {m : Store c} {i : Nat} {e : Nat × Elem c} :
    e ∈ Store.erase m i ↔ e ∈ m ∧ e.1 ≠ i := by
  induction m with
  | nil => simp [Store.erase]
  | cons a rest ih =>
    obtain ⟨k, x⟩ := a
    simp only [Store.erase]
    split
    · rename_i h
      rw [ih]
      constructor
      · exact fun ⟨h1, h2⟩ => ⟨List.mem_cons_of_mem _ h1, h2⟩
      · rintro ⟨h1, h2⟩
        rcases List.mem_cons.mp h1 with rfl | h1
        · exact absurd h h2
        · exact ⟨h1, h2⟩
    · rename_i h
      rw [List.mem_cons, List.mem_cons, ih]
      constructor
      · rintro (rfl | ⟨h1, h2⟩)
        · exact ⟨.inl rfl, h⟩
        · exact ⟨.inr h1, h2⟩
      · rintro ⟨rfl | h1, h2⟩
        · exact .inl rfl
        · exact .inr ⟨h1, h2⟩

theorem Store.mem_insert {m : Store c} {i : Nat} {v : Elem c} {e : Nat × Elem c} :
    e ∈ Store.insert m i v ↔ e = (i, v) ∨ e ∈ m := by
  induction m with
  | nil => simp [Store.insert]
  | cons a rest ih =>
    obtain ⟨k, x⟩ := a
    simp only [Store.insert]
    split
    · simp [List.mem_cons]
    · rw [List.mem_cons, ih, List.mem_cons]
      tauto

/-- R36: a write changes the cell it names and no other. -/
theorem Store.read_write (m : Store c) (i : Nat) (v : Elem c) (n : Nat) :
    Store.read (Store.write m i v) n = if n = i then v else Store.read m n := by
  unfold Store.write
  split
  · rename_i h
    rw [Store.read_erase]
    split
    · rename_i hn
      rw [hn, h]
    · rfl
  · rw [Store.read_insert _ _ _ (fun e he => (Store.mem_erase.mp he).2), Store.read_erase]
    split <;> rfl

theorem Store.erase_pairwise {m : Store c} (i : Nat) (h : m.Pairwise (fun x y => x.1 < y.1)) :
    (Store.erase m i).Pairwise (fun x y => x.1 < y.1) := by
  induction m with
  | nil => simp [Store.erase]
  | cons a rest ih =>
    obtain ⟨k, x⟩ := a
    rw [List.pairwise_cons] at h
    simp only [Store.erase]
    split
    · exact ih h.2
    · exact List.pairwise_cons.mpr ⟨fun e he => h.1 e (Store.mem_erase.mp he).1, ih h.2⟩

theorem Store.insert_pairwise {m : Store c} (i : Nat) (v : Elem c) (hi : ∀ e ∈ m, e.1 ≠ i)
    (h : m.Pairwise (fun x y => x.1 < y.1)) :
    (Store.insert m i v).Pairwise (fun x y => x.1 < y.1) := by
  induction m with
  | nil => simp [Store.insert]
  | cons a rest ih =>
    obtain ⟨k, x⟩ := a
    have hk : k ≠ i := hi (k, x) (by simp)
    have h' := List.pairwise_cons.mp h
    simp only [Store.insert]
    split
    · rename_i hlt
      refine List.pairwise_cons.mpr ⟨fun e he => ?_, h⟩
      rcases List.mem_cons.mp he with rfl | he
      · exact hlt
      · exact Nat.lt_trans hlt (h'.1 e he)
    · rename_i hlt
      refine List.pairwise_cons.mpr ⟨fun e he => ?_,
        ih (fun e he => hi e (List.mem_cons_of_mem _ he)) h'.2⟩
      rcases Store.mem_insert.mp he with rfl | he
      · have : ¬ i < k := hlt
        show k < i
        omega
      · exact h'.1 e he

@[simp] theorem Store.wf_nil : Store.wf ([] : Store c) := by simp [Store.wf]

/-- A write to a cell that exists keeps the canonical form. -/
theorem Store.wf_write {m : Store c} (i : Nat) (v : Elem c) (hi : i < c.C) (h : Store.wf m) :
    Store.wf (Store.write m i v) := by
  have herase : Store.wf (Store.erase m i) :=
    ⟨Store.erase_pairwise i h.1, fun e he => h.2 e (Store.mem_erase.mp he).1⟩
  unfold Store.write
  split
  · exact herase
  · rename_i hv
    refine ⟨Store.insert_pairwise i v (fun e he => (Store.mem_erase.mp he).2) herase.1,
      fun e he => ?_⟩
    rcases Store.mem_insert.mp he with rfl | he
    · exact ⟨hi, hv⟩
    · exact herase.2 e he

theorem Store.read_of_lt_all {m : Store c} {i : Nat} (h : ∀ e ∈ m, i < e.1) :
    Store.read m i = c.powerOnCell i := by
  induction m with
  | nil => rfl
  | cons a rest ih =>
    obtain ⟨k, x⟩ := a
    have hk : i < k := h (k, x) (by simp)
    rw [Store.read_cons, if_neg (by omega)]
    exact ih (fun e he => h e (List.mem_cons_of_mem _ he))

/-- In the canonical form two stores with the same cells are the same data. -/
theorem Store.ext_of_wf {m n : Store c} (hm : Store.wf m) (hn : Store.wf n)
    (h : ∀ i, Store.read m i = Store.read n i) : m = n := by
  induction m generalizing n with
  | nil =>
    cases n with
    | nil => rfl
    | cons a rest =>
      obtain ⟨k, x⟩ := a
      have := h k
      rw [Store.read_nil, Store.read_cons, if_pos rfl] at this
      exact absurd this.symm (hn.2 (k, x) (by simp)).2
  | cons a rest ih =>
    obtain ⟨k, x⟩ := a
    have hm' := List.pairwise_cons.mp hm.1
    cases n with
    | nil =>
      have := h k
      rw [Store.read_nil, Store.read_cons, if_pos rfl] at this
      exact absurd this (hm.2 (k, x) (by simp)).2
    | cons a' rest' =>
      obtain ⟨k', x'⟩ := a'
      have hn' := List.pairwise_cons.mp hn.1
      rcases Nat.lt_trichotomy k k' with hlt | rfl | hlt
      · have := h k
        rw [Store.read_cons, if_pos rfl, Store.read_of_lt_all (fun e he => by
          rcases List.mem_cons.mp he with rfl | he
          · exact hlt
          · exact Nat.lt_trans hlt (hn'.1 e he))] at this
        exact absurd this (hm.2 (k, x) (by simp)).2
      · have hx := h k
        rw [Store.read_cons, Store.read_cons, if_pos rfl, if_pos rfl] at hx
        have hrest : rest = rest' := by
          refine ih ⟨hm'.2, fun e he => hm.2 e (List.mem_cons_of_mem _ he)⟩
            ⟨hn'.2, fun e he => hn.2 e (List.mem_cons_of_mem _ he)⟩ (fun i => ?_)
          have := h i
          rw [Store.read_cons, Store.read_cons] at this
          by_cases hi : k = i
          · subst hi
            rw [Store.read_of_lt_all (fun e he => hm'.1 e he),
              Store.read_of_lt_all (fun e he => hn'.1 e he)]
          · rwa [if_neg hi, if_neg hi] at this
        rw [hx, hrest]
      · have := h k'
        rw [Store.read_cons k' x', if_pos rfl, Store.read_of_lt_all (fun e he => by
          rcases List.mem_cons.mp he with rfl | he
          · exact hlt
          · exact Nat.lt_trans hlt (hm'.1 e he))] at this
        exact absurd this.symm (hn.2 (k', x') (by simp)).2

end Sys2Proof.Machine
end

