-- ==== Sys2Proof/Laws/Cycle.lean ====
section
/-! SUPPORT. Everything a command, an output read and a cycle can do, said once: the other proofs cite
these lemmas instead of unfolding the meanings. -/

namespace Sys2Proof.Machine

variable {c : Config}

theorem decode_isCommand (st : Stimulus c) : (decode st).isCommand = true := by
  unfold decode
  split
  · rfl
  · split
    · rfl
    · split <;> rfl

/-- An initialising command accepts no push and no pop. -/
theorem initialises_accepts {i : Instr} (h : initialises i = true) :
    pushOperand i = none ∧ popAccepted i = false := by
  cases i <;> simp_all [initialises, pushOperand, popAccepted]

/-- What a command does: each field of the next state. -/
theorem execIn_command {i : Instr} (hi : i.isCommand = true) (s : State.Of c) :
    ∃ t, execIn i s = .next t ∧
      t.head = (if initialises i then 0 else if pushAccepted i then succ s.head else s.head) ∧
      t.tail = (if initialises i then 0 else if popAccepted i then succ s.tail else s.tail) ∧
      t.store = (match pushOperand i with
        | some v => Store.write s.store (writeCell s) (wdataOf c v)
        | none => s.store) ∧
      t.initialised = (s.initialised || initialises i) ∧ t.inputs = s.inputs ∧
      t.seen = outputs i s ∧ t.ret = returned i s := by
  cases i <;> simp only [Instr.isCommand, Bool.false_eq_true] at hi
  case reset => exact ⟨_, rfl, rfl, rfl, rfl, by simp [initialises], rfl, rfl, rfl⟩
  case init => exact ⟨_, rfl, rfl, rfl, rfl, by simp [initialises], rfl, rfl, rfl⟩
  case nop => exact ⟨_, rfl, rfl, rfl, rfl, by simp [initialises], rfl, rfl, rfl⟩
  case push v => exact ⟨_, rfl, rfl, rfl, rfl, by simp [initialises], rfl, rfl, rfl⟩
  case pop => exact ⟨_, rfl, rfl, rfl, rfl, by simp [initialises], rfl, rfl, rfl⟩
  case pushpop v => exact ⟨_, rfl, rfl, rfl, rfl, by simp [initialises], rfl, rfl, rfl⟩

/-- What an output read does: only the environment's record changes. -/
theorem execIn_read {i : Instr} (hi : i.isCommand = false) (s : State.Of c) :
    ∃ o, execIn i s = .next (s.setSeen o) := by
  cases i <;> simp only [Instr.isCommand, Bool.true_eq_false] at hi <;> exact ⟨_, rfl⟩

@[simp] theorem outputs_advance (i : Instr) (s : State.Of c) : outputs i s.advance = outputs i s := rfl

@[simp] theorem returned_advance (i : Instr) (s : State.Of c) : returned i s.advance = returned i s := rfl

/-- A cycle performs the command on the ports, and has a next state. -/
theorem stepIn_command (s : State.Of c) :
    stepIn s = .next (cycle s) ∧
      (cycle s).head = (if initialises (presentCommand s) then 0
        else if pushAccepted (presentCommand s) then succ s.head else s.head) ∧
      (cycle s).tail = (if initialises (presentCommand s) then 0
        else if popAccepted (presentCommand s) then succ s.tail else s.tail) ∧
      (cycle s).store = (match pushOperand (presentCommand s) with
        | some v => Store.write s.store (writeCell s) (wdataOf c v)
        | none => s.store) ∧
      (cycle s).initialised = (s.initialised || initialises (presentCommand s)) ∧
      (cycle s).inputs = s.inputs.tail ∧
      (cycle s).seen = outputs (presentCommand s) s ∧
      (cycle s).ret = returned (presentCommand s) s := by
  obtain ⟨t, ht, h⟩ := execIn_command (decode_isCommand s.present) s.advance
  have hs : stepIn s = .next t := ht
  have hc : cycle s = t := by rw [cycle, hs]
  rw [hc]
  exact ⟨hs, h⟩

theorem cycle_head (s : State.Of c) : (cycle s).head = (if initialises (presentCommand s) then 0
    else if pushAccepted (presentCommand s) then succ s.head else s.head) := (stepIn_command s).2.1

theorem cycle_tail (s : State.Of c) : (cycle s).tail = (if initialises (presentCommand s) then 0
    else if popAccepted (presentCommand s) then succ s.tail else s.tail) := (stepIn_command s).2.2.1

theorem cycle_store (s : State.Of c) : (cycle s).store = (match pushOperand (presentCommand s) with
    | some v => Store.write s.store (writeCell s) (wdataOf c v)
    | none => s.store) := (stepIn_command s).2.2.2.1

theorem cycle_initialised (s : State.Of c) :
    (cycle s).initialised = (s.initialised || initialises (presentCommand s)) :=
  (stepIn_command s).2.2.2.2.1

@[simp] theorem cycle_inputs (s : State.Of c) : (cycle s).inputs = s.inputs.tail :=
  (stepIn_command s).2.2.2.2.2.1

theorem cycle_seen (s : State.Of c) : (cycle s).seen = outputs (presentCommand s) s :=
  (stepIn_command s).2.2.2.2.2.2.1

theorem cycle_ret (s : State.Of c) : (cycle s).ret = returned (presentCommand s) s :=
  (stepIn_command s).2.2.2.2.2.2.2

/-- The commands of a run depend on the inputs alone. -/
theorem commands_congr {s t : State.Of c} (h : s.inputs = t.inputs) (k : Nat) :
    commands k s = commands k t := by
  induction k generalizing s t with
  | zero => rfl
  | succ k ih =>
    have hp : presentCommand s = presentCommand t := by
      simp [presentCommand, State.Of.present, h]
    simp only [commands, hp]
    rw [ih (s := s.advance) (t := t.advance) (by simp [h])]

theorem commands_succ (k : Nat) (s : State.Of c) :
    commands (k + 1) s = presentCommand s :: commands k (cycle s) := by
  rw [commands, commands_congr (s := s.advance) (t := cycle s) (by simp)]

end Sys2Proof.Machine
end

