-- ==== Sys2Proof/Laws/Every.lean ====
section
/-! SUPPORT. The fixed names `exec` and `step` are the machine of Machine/Every.lean in the configuration
`Config.machine`. -/

namespace Sys2Proof.Machine

theorem exec_eq_execIn (i : Instr) (s : State) : exec i s = execIn i s := by cases i <;> rfl

theorem step_eq_stepIn (s : State) : step s = stepIn s := exec_eq_execIn _ _

end Sys2Proof.Machine
end

