-- ==== Sys2Proof/Laws/PerInstr.lean ====
section
/-! SUPPORT. The per-instruction family `CommandWordMatchesItsRow`: the canonical command word of an
instruction is selected by the row of spec/opcode_table.json that bears its mnemonic. -/

namespace Sys2Proof.Laws.CommandWordMatchesItsRow

/-- If an instruction has a stimulus, the row of its mnemonic selects the command word. -/
def Statement (i : Instr) : Prop :=
  ∀ (c : Config) (st : Stimulus c), encode c i = some st →
    ∃ row ∈ commandTable, row.mnemonic = i.mnemonic ∧ row.selects st.cw = true

/-- The request wires that carry a command word carry that word. -/
theorem cw_ofCw {c : Config} (cw : BitVec 4) (w : Elem c) : (Stimulus.ofCw cw w).cw = cw := by
  have h : ∀ x : BitVec 4, BitVec.ofBool (x.getLsbD 3) ++ BitVec.ofBool (x.getLsbD 2)
      ++ BitVec.ofBool (x.getLsbD 1) ++ BitVec.ofBool (x.getLsbD 0) = x := by decide
  exact h cw

/-- The statement, from the row and the command word the encoder uses. -/
theorem of_encoding {i : Instr} (row : CommandRow) (hrow : row ∈ commandTable)
    (hm : row.mnemonic = i.mnemonic) (cw : BitVec 4) (hs : row.selects cw = true)
    (he : ∀ c : Config, ∃ w, encode c i = some (Stimulus.ofCw cw w)) : Statement i := by
  intro c st h
  obtain ⟨w, hw⟩ := he c
  obtain rfl : Stimulus.ofCw cw w = st := Option.some.inj (hw.symm.trans h)
  exact ⟨row, hrow, hm, by rw [cw_ofCw]; exact hs⟩

theorem reset : Statement .reset :=
  of_encoding ⟨"RESET", 0x8#4, 0x8#4⟩ (by decide) rfl 0b1000#4 (by decide) (fun _ => ⟨_, rfl⟩)

theorem init : Statement .init :=
  of_encoding ⟨"INIT", 0x4#4, 0xC#4⟩ (by decide) rfl 0b0100#4 (by decide) (fun _ => ⟨_, rfl⟩)

theorem nop : Statement .nop :=
  of_encoding ⟨"NOP", 0x0#4, 0xF#4⟩ (by decide) rfl 0b0000#4 (by decide) (fun _ => ⟨_, rfl⟩)

theorem push (value : Nat) : Statement (.push value) :=
  of_encoding ⟨"PUSH", 0x1#4, 0xF#4⟩ (by decide) rfl 0b0001#4 (by decide) (fun _ => ⟨_, rfl⟩)

theorem pop : Statement .pop :=
  of_encoding ⟨"POP", 0x2#4, 0xF#4⟩ (by decide) rfl 0b0010#4 (by decide) (fun _ => ⟨_, rfl⟩)

theorem pushpop (value : Nat) : Statement (.pushpop value) :=
  of_encoding ⟨"PUSHPOP", 0x3#4, 0xF#4⟩ (by decide) rfl 0b0011#4 (by decide) (fun _ => ⟨_, rfl⟩)

/-- R57: an output read has no stimulus. -/
theorem of_no_encoding {i : Instr} (h : ∀ c, encode c i = none) : Statement i := by
  intro c st hst
  rw [h c] at hst
  cases hst

theorem length : Statement .length := of_no_encoding (fun _ => rfl)
theorem isEmpty : Statement .isEmpty := of_no_encoding (fun _ => rfl)
theorem isFull : Statement .isFull := of_no_encoding (fun _ => rfl)
theorem rdata : Statement .rdata := of_no_encoding (fun _ => rfl)
theorem wrIdx : Statement .wrIdx := of_no_encoding (fun _ => rfl)
theorem rdIdx : Statement .rdIdx := of_no_encoding (fun _ => rfl)
theorem wrWrap : Statement .wrWrap := of_no_encoding (fun _ => rfl)
theorem rdWrap : Statement .rdWrap := of_no_encoding (fun _ => rfl)
theorem headCarry : Statement .headCarry := of_no_encoding (fun _ => rfl)
theorem tailCarry : Statement .tailCarry := of_no_encoding (fun _ => rfl)
theorem pushViol : Statement .pushViol := of_no_encoding (fun _ => rfl)
theorem popViol : Statement .popViol := of_no_encoding (fun _ => rfl)
theorem headQ : Statement .headQ := of_no_encoding (fun _ => rfl)
theorem tailQ : Statement .tailQ := of_no_encoding (fun _ => rfl)

end Sys2Proof.Laws.CommandWordMatchesItsRow
end

