-- ==== Sys2Proof/Tests/Slice0.lean ====
section
/-! SUPPORT. The model's own tests. The expected values are those of spec/95_test_vectors.md (sections 2.1
to 2.6 and program P1) and of the rules of spec/, written out by hand. The states have power-on draws that
are not zero. The second half holds the witnesses: for each obligation with hypotheses, concrete values that
meet them together. -/

namespace Sys2Proof.Tests

open Sys2Proof.Machine

/-- SMALL, with power-on draws that no test expects by accident: head 5, tail 2, cell i holds 0xC0 + i. -/
def small : Config := Config.small 5 2 (fun i => BitVec.ofNat 8 (0xC0 + i))

/-- REF, with such draws. -/
def ref : Config := Config.ref 77 201 (fun i => BitVec.ofNat 8 (0xC0 + i))

/-- ONE, with such draws. -/
def one : Config := Config.one 1 0 (fun i => BitVec.ofNat 8 (0xC0 + i))

/-- A configuration of capacity 2: R = 3 (one declared cell is unused), W = 2. -/
def two : Config where
  R := 3
  W := 2
  DW := 8

variable {c : Config}

/-- A stimulus from a command word and a value for `wdata`. -/
def stim (c : Config) (cw : BitVec 4) (w : Nat) : Stimulus c := Stimulus.ofCw cw (BitVec.ofNat c.DW w)

/-- A state with the given counters, the given elements in cells 0, 1, …, and the given words to come. -/
def mk (c : Config) (head tail : Nat) (elems : List Nat) (inputs : List (Stimulus c)) : State.Of c :=
  { State.Of.reset c with
    head := BitVec.ofNat c.W head
    tail := BitVec.ofNat c.W tail
    store := elems.zipIdx.foldl (fun m e => Store.write m e.2 (BitVec.ofNat c.DW e.1)) []
    inputs := inputs }

/-- The next state of a result. -/
def nextOf (r : Result c) : State.Of c :=
  match r with
  | .next t => t
  | .fault _ => State.Of.reset c
  | .refused _ => State.Of.reset c

/-- The two counters and the content of the cells. -/
def blockOf (s : State.Of c) : Nat × Nat × List Nat :=
  (s.head.toNat, s.tail.toNat, (List.range c.C).map (fun i => (Store.read s.store i).toNat))

/-- `length`, `empty`, `full` and `rdata`, as the environment saw them. -/
def statusOf (o : Outputs c) : Nat × Bool × Bool × Nat := (o.length.toNat, o.empty, o.full, o.rdata.toNat)

/-- The six command-dependent outputs, in the order of the vectors' column. -/
def flagsOf (o : Outputs c) : List Bool :=
  [o.wrWrap, o.rdWrap, o.headCarry, o.tailCarry, o.pushViol, o.popViol]

/-- The element returned. -/
def retOf (s : State.Of c) : Option Nat := s.ret.map BitVec.toNat

/-! ### WellFormed: the check, with an ill-formed term it refuses -/

theorem test_push_value_over_eight_bits_is_ill_formed : (Instr.push 256).wellFormed small = false := by
  decide

theorem test_pushpop_value_over_eight_bits_is_ill_formed :
    (Instr.pushpop 256).wellFormed small = false := by decide

theorem test_push_value_of_eight_bits_is_well_formed : (Instr.push 255).wellFormed small = true := by
  decide

/-! ### Configurations (vectors 2.1 and 2.2) -/

theorem test_ref_has_capacity_64 : ref.b = 6 ∧ ref.C = 64 ∧ ref.MASK = 0x3F ∧ ref.LW = 7 ∧ ref.depth = 63 := by
  decide +kernel

theorem test_build_refuses_256_cells_with_8_bit_counters :
    (Config.build? 256 8 8 0 0 (fun _ => 0)).isNone = true := by decide +kernel

theorem test_build_accepts_128_cells_with_8_bit_counters :
    (Config.build? 128 8 8 0 0 (fun _ => 0)).isSome = true := by decide +kernel

theorem test_build_refuses_zero_cells : (Config.build? 0 8 8 0 0 (fun _ => 0)).isNone = true := by
  decide +kernel

/-! ### Decoding (vectors 2.3 and 2.4): words written out from R51, R52 and R53 -/

theorem test_decode_reset : decode (stim small 0b1000#4 0) = .reset := by decide

theorem test_decode_reset_over_all : decode (stim small 0b1111#4 0xDD) = .reset := by decide

theorem test_decode_init : decode (stim small 0b0100#4 0) = .init := by decide

theorem test_decode_init_over_push_and_pop : decode (stim small 0b0111#4 0xCC) = .init := by decide

theorem test_decode_nop : decode (stim small 0b0000#4 0) = .nop := by decide

theorem test_decode_push : decode (stim small 0b0001#4 0x5A) = .push 0x5A := by decide

theorem test_decode_pop : decode (stim small 0b0010#4 0xEE) = .pop := by decide

theorem test_decode_pushpop : decode (stim small 0b0011#4 0xA2) = .pushpop 0xA2 := by decide

theorem test_decode_stimulus_word_0x1EE :
    decode (Stimulus.ofWord (c := small) (0x1EE#12)) = .push 0xEE := by decide +kernel

theorem test_decode_stimulus_word_0x7CC :
    decode (Stimulus.ofWord (c := small) (0x7CC#12)) = .init := by decide +kernel

/-- The table's words, one for each CMD row, at the machine behind the fixed names: the kernel evaluates
them although nothing is known of the configuration. -/
theorem test_table_words_decode :
    decodeTableWord 8 0x8 = some .reset ∧ decodeTableWord 8 0x4 = some .init ∧
      decodeTableWord 8 0x0 = some .nop ∧ decodeTableWord 8 0x1 = some (.push 0) ∧
      decodeTableWord 8 0x2 = some .pop ∧ decodeTableWord 8 0x3 = some (.pushpop 0) := by
  refine ⟨rfl, rfl, rfl, rfl, rfl, rfl⟩

theorem test_step_runs_a_table_word_as_the_first_instruction :
    step (State.reset.withFetchWord 8 0x1) = exec (.push 0) State.reset := rfl

/-! ### RESET, INIT and NOP (vectors 2.5) -/

theorem test_reset_small :
    let t := nextOf (execIn .reset (mk small 6 3 [0x11, 0x22, 0x33, 0x44] []))
    blockOf t = (0, 0, [0x11, 0x22, 0x33, 0x44]) ∧
      statusOf (outputs .nop t) = (0, true, false, 0x11) := by decide +kernel

theorem test_reset_one :
    let t := nextOf (execIn .reset (mk one 1 0 [0x5A] []))
    blockOf t = (0, 0, [0x5A]) ∧ statusOf (outputs .nop t) = (0, true, true, 0x5A) := by
  decide +kernel

theorem test_init_small :
    let t := nextOf (execIn .init (mk small 6 3 [0x11, 0x22, 0x33, 0x44] []))
    blockOf t = (0, 0, [0x11, 0x22, 0x33, 0x44]) ∧
      statusOf (outputs .nop t) = (0, true, false, 0x11) := by decide +kernel

theorem test_init_non_canonical_word_pushes_nothing :
    let t := cycle (mk small 6 3 [0x11, 0x22, 0x33, 0x44] [stim small 0b0111#4 0x00])
    blockOf t = (0, 0, [0x11, 0x22, 0x33, 0x44]) ∧
      flagsOf t.seen = [false, false, false, false, false, false] := by decide +kernel

theorem test_nop_small :
    let t := nextOf (execIn .nop (mk small 6 3 [0x11, 0x22, 0x33, 0x44] []))
    blockOf t = (6, 3, [0x11, 0x22, 0x33, 0x44]) ∧ statusOf t.seen = (3, false, true, 0x44) := by
  decide +kernel

/-! ### PUSH, POP and PUSHPOP (vectors 2.6, by their numbers) -/

/-- Vector 4. -/
theorem test_push_when_full :
    let t := nextOf (execIn (.push 0x44) (mk small 3 0 [0x11, 0x22, 0x33] []))
    blockOf t = (4, 0, [0x11, 0x22, 0x33, 0x44]) ∧ statusOf t.seen = (3, false, true, 0x11) ∧
      flagsOf t.seen = [true, false, false, false, true, false] ∧
      statusOf (outputs .nop t) = (0, true, false, 0x11) := by decide +kernel

/-- Vector 12. -/
theorem test_push_counter_carry :
    let t := nextOf (execIn (.push 0x88) (mk small 7 6 [0x11, 0x22, 0x33, 0x44] []))
    blockOf t = (0, 6, [0x11, 0x22, 0x33, 0x88]) ∧
      flagsOf t.seen = [true, false, true, false, false, false] ∧ retOf t = none ∧
      (outputs .nop t).length = 2 := by decide +kernel

/-- Vector 13. -/
theorem test_pop_counter_carry :
    let t := nextOf (execIn .pop (mk small 1 7 [0x11, 0x22, 0x33, 0x44] []))
    blockOf t = (1, 0, [0x11, 0x22, 0x33, 0x44]) ∧ retOf t = some 0x44 ∧
      flagsOf t.seen = [false, true, false, true, false, false] ∧
      (outputs .nop t).length = 1 := by decide +kernel

/-- Vector 8: the cell was never written, so the element is the power-on draw of cell 3. -/
theorem test_pop_when_empty :
    let t := nextOf (execIn .pop (mk small 3 3 [0x11, 0x22, 0x33] []))
    t.tail = 4 ∧ retOf t = some 0xC3 ∧ flagsOf t.seen = [false, true, false, false, false, true] ∧
      (outputs .nop t).full = true := by decide +kernel

/-- Vector 17: the element returned is the one before the write. -/
theorem test_pushpop_at_empty :
    let t := nextOf (execIn (.pushpop 0x99) (mk small 2 2 [0xA0, 0xA1, 0xA2] []))
    blockOf t = (3, 3, [0xA0, 0xA1, 0x99, 0xC3]) ∧ retOf t = some 0xA2 ∧
      flagsOf t.seen = [false, false, false, false, false, true] := by decide +kernel

/-- Vector 22. -/
theorem test_pushpop_one :
    let t := nextOf (execIn (.pushpop 0x66) (mk one 1 1 [0x5A] []))
    blockOf t = (0, 0, [0x66]) ∧ retOf t = some 0x5A ∧
      flagsOf t.seen = [true, true, true, true, true, true] ∧
      statusOf (outputs .nop t) = (0, true, true, 0x66) := by decide +kernel

/-! ### The output reads: the state and the word of a vector, and what the port shows -/

/-- Vector 14: head 1, tail 6. -/
theorem test_length_across_the_carry :
    (nextOf (execIn .length (mk small 1 6 [] []))).seen.length = 3 := by decide +kernel

/-- Vector 24: REF at 63 elements. -/
theorem test_isFull_at_63_of_64 : (nextOf (execIn .isFull (mk ref 63 0 [] []))).seen.full = true := by
  decide +kernel

/-- Vector 23: REF at 62 elements. -/
theorem test_isFull_at_62_of_64 : (nextOf (execIn .isFull (mk ref 62 0 [] []))).seen.full = false := by
  decide +kernel

/-- Vector 9: head 5, tail 5. -/
theorem test_isEmpty_with_equal_indices :
    (nextOf (execIn .isEmpty (mk small 5 5 [] []))).seen.empty = true := by decide +kernel

/-- Program P4, cycle 5: head 4, tail 0 differ but their indices do not. -/
theorem test_isEmpty_compares_the_masked_counters :
    (nextOf (execIn .isEmpty (mk small 4 0 [] []))).seen.empty = true := by decide +kernel

/-- Vector 11: tail 3, cell 3 holds 0x44. -/
theorem test_rdata_reads_the_cell_at_tail :
    (nextOf (execIn .rdata (mk small 5 3 [0x55, 0x22, 0x33, 0x44] []))).seen.rdata = 0x44 := by
  decide +kernel

/-- Vector 2.5, the NOP row: head 6 and tail 3. -/
theorem test_wrIdx_masks_head : (nextOf (execIn .wrIdx (mk small 6 3 [] []))).seen.wrIdx = 2 := by
  decide +kernel

theorem test_rdIdx_masks_tail : (nextOf (execIn .rdIdx (mk small 6 7 [] []))).seen.rdIdx = 3 := by
  decide +kernel

/-- Vector 10, read in the cycle of the push. -/
theorem test_wrWrap_in_the_cycle_of_the_push :
    (nextOf (execIn .wrWrap (mk small 3 2 [] [stim small 0b0001#4 0x44]))).seen.wrWrap = true := by
  decide +kernel

/-- The same state in a cycle of NOP. -/
theorem test_wrWrap_without_a_push :
    (nextOf (execIn .wrWrap (mk small 3 2 [] [stim small 0b0000#4 0x44]))).seen.wrWrap = false := by
  decide +kernel

/-- Vector 11, read in the cycle of the pop. -/
theorem test_rdWrap_in_the_cycle_of_the_pop :
    (nextOf (execIn .rdWrap (mk small 5 3 [] [stim small 0b0010#4 0]))).seen.rdWrap = true := by
  decide +kernel

/-- Vector 12, and vector 10 whose index wraps without a carry. -/
theorem test_headCarry_needs_the_whole_counter :
    (nextOf (execIn .headCarry (mk small 7 6 [] [stim small 0b0001#4 0]))).seen.headCarry = true ∧
      (nextOf (execIn .headCarry (mk small 3 2 [] [stim small 0b0001#4 0]))).seen.headCarry = false := by
  decide +kernel

/-- Vector 13, and vector 11. -/
theorem test_tailCarry_needs_the_whole_counter :
    (nextOf (execIn .tailCarry (mk small 1 7 [] [stim small 0b0010#4 0]))).seen.tailCarry = true ∧
      (nextOf (execIn .tailCarry (mk small 5 3 [] [stim small 0b0010#4 0]))).seen.tailCarry = false := by
  decide +kernel

/-- Vector 4, and the same state under INIT with the push bit set (R104). -/
theorem test_pushViol_only_for_an_accepted_push :
    (nextOf (execIn .pushViol (mk small 3 0 [] [stim small 0b0001#4 0]))).seen.pushViol = true ∧
      (nextOf (execIn .pushViol (mk small 3 0 [] [stim small 0b0101#4 0]))).seen.pushViol = false := by
  decide +kernel

/-- Vector 8, and vector 7. -/
theorem test_popViol_only_when_empty :
    (nextOf (execIn .popViol (mk small 3 3 [] [stim small 0b0010#4 0]))).seen.popViol = true ∧
      (nextOf (execIn .popViol (mk small 3 2 [] [stim small 0b0010#4 0]))).seen.popViol = false := by
  decide +kernel

theorem test_headQ_is_the_whole_counter : (nextOf (execIn .headQ (mk small 6 3 [] []))).seen.headQ = 6 := by
  decide +kernel

theorem test_tailQ_is_the_whole_counter : (nextOf (execIn .tailQ (mk small 3 6 [] []))).seen.tailQ = 6 := by
  decide +kernel

/-! ### The store, the ports and the roles -/

/-- Writing a cell's power-on draw removes its entry. -/
theorem test_writing_the_draw_removes_the_entry :
    Store.write (c := small) [(1, 0x22), (3, 0x44)] 1 0xC1 = [(3, 0x44)] := by decide +kernel

theorem test_port_widths_of_one_are_zero_for_the_indices :
    portWidth one .wrIdx = 0 ∧ portWidth one .length = 1 ∧ portWidth ref .length = 7 := by
  decide +kernel

theorem test_only_the_producer_drives_push_and_wdata :
    mayDrive .producer .push = true ∧ mayDrive .producer .wdata = true ∧
      mayDrive .consumer .push = false ∧ mayDrive .producer .full = false ∧
      mayRead .initialiser .headQ = true ∧ mayRead .producer .clk = false ∧
      handle .consumer = [.pop, .rdata, .empty] := by decide

/-- R116: the power-on state holds the draws, and nothing was initialised. -/
theorem test_power_on_holds_the_draws :
    (powerOn small).head = 5 ∧ (powerOn small).tail = 2 ∧ (powerOn small).initialised = false ∧
      statusOf (powerOn small).seen = (3, false, true, 0xC2) := by decide +kernel

/-! ### Witnesses: values that meet the hypotheses of an obligation together -/

/-- CapacityIsRoundedDownToAPowerOfTwo: both ends of each range of `R`, and powers of two up to `R`. -/
theorem witness_capacity_ranges :
    one.R = 1 ∧ (∃ c : Config, c.R = 2) ∧ two.R = 3 ∧ small.R = 4 ∧ (∃ c : Config, c.R = 7) ∧
      ref.R = 100 ∧ (Config.big 0 0 (fun _ => 0)).R = 128 ∧ (∃ c : Config, c.R = 255) ∧
      2 ^ 6 ≤ ref.R := by
  refine ⟨rfl, ⟨{ R := 2, W := 2, DW := 8 }, rfl⟩, rfl, rfl, ⟨{ R := 7, W := 3, DW := 8 }, rfl⟩, rfl, rfl,
    ⟨{ R := 255, W := 8, DW := 8, W_wide := by decide +kernel }, rfl⟩, by decide⟩

/-- BuildRefusesExactlyTheBadConfigurations: a build that succeeds. -/
theorem witness_build_succeeds :
    Config.build? 4 3 8 5 2 (fun i => BitVec.ofNat 8 (0xC0 + i)) = some small := rfl

/-- EveryOutputAfterResetOrInit: both instructions. -/
theorem witness_reset_or_init :
    (Instr.reset = .reset ∨ Instr.reset = .init) ∧ (Instr.init = .reset ∨ Instr.init = .init) := by
  decide

/-- LengthIsTheMaskedCounterDifference, EmptyComparesTheMaskedIndices,
FullReportsAnOccupancyOneShortOfTheCapacity, and the clauses on `C = 1`, `C = 2` and `1 < C` of the others. -/
theorem witness_capacities : one.C = 1 ∧ two.C = 2 ∧ 1 < two.C ∧ 1 < small.C := by decide +kernel

/-- EmptyComparesTheMaskedIndices, FullReportsAnOccupancyOneShortOfTheCapacity and
IndexOutputsAreTheMaskedCounters: a state with both counters zero. -/
theorem witness_zero_counters : State.reset.head = 0 ∧ State.reset.tail = 0 := ⟨rfl, rfl⟩

/-- RdataShowsTheCellAtTail: an empty state of the machine, and a state that is not empty. -/
theorem witness_empty_and_not_empty :
    emptyOut State.reset = true ∧ emptyOut (mk small 3 2 [] []) = false := by
  refine ⟨by simp [emptyOut, State.reset, State.Of.reset], by decide +kernel⟩

/-- WrapOutputsFlagTheIndexWrap and CarryOutputsFlagTheCounterWrap: a cycle that wraps and carries on both
sides. -/
theorem witness_wraps_and_carries :
    let s := mk small 7 7 [] [stim small 0b0011#4 0x77]
    wrWrapOut (presentCommand s) s = true ∧ rdWrapOut (presentCommand s) s = true ∧
      headCarryOut (presentCommand s) s = true ∧ tailCarryOut (presentCommand s) s = true := by
  decide +kernel

/-- ViolationOutputsFlagTheCycleAndSuppressNothing: a violating push and a violating pop. -/
theorem witness_violations :
    (let s := mk small 3 0 [] [stim small 0b0001#4 0x44]
     pushViolOut (presentCommand s) s = true) ∧
      (let s := mk small 3 3 [] [stim small 0b0010#4 0]
       popViolOut (presentCommand s) s = true) := by decide +kernel

/-- WrittenOutWordsDecodeToTheirCommands, StimulusWordIsCommandWordThenData: `DW = 8`, and the ends of the
range of an operand. -/
theorem witness_element_width_eight : small.DW = 8 ∧ 0 < 256 ∧ 255 < 256 := by decide

/-- WdataIsIgnoredWithoutAnAcceptedPush: POP, and INIT with the push bit set. -/
theorem witness_no_push_accepted :
    pushAccepted (decode (stim small 0b0010#4 0xEE)) = false ∧
      pushAccepted (decode (stim small 0b0101#4 0xEE)) = false := by decide

/-- AllSixteenCommandWordsAreDefined and DecodeSelectsTheFirstMatchingRow: a redundant word of RESET and one of INIT. -/
theorem witness_redundant_words :
    (stim small 0b1011#4 0).rst = true ∧ (stim small 0b0111#4 0).rst = false ∧
      (stim small 0b0111#4 0).init = true := by decide

/-- DecodeOfEncodeIsTheCommand: a command at the largest operand, one with no accepted push, and a read. -/
theorem witness_encodable :
    (Instr.pushpop 255).wellFormed small = true ∧ (Instr.pushpop 255).isCommand = true ∧
      Instr.pop.wellFormed small = true ∧ pushAccepted .pop = false ∧ Instr.length.isCommand = false := by
  decide

/-- StepRunsTheDecodedCommand: inputs that have a first stimulus, and inputs that have none. -/
theorem witness_inputs :
    (State.reset.withFetchWord 8 1).inputs = Stimulus.ofTableWord Config.machine 8 1 :: [] ∧
      State.reset.inputs = [] := ⟨rfl, rfl⟩

/-- StepRunsTheFetchedTableWord. -/
theorem witness_table_word : decodeTableWord 8 2 = some .pop := rfl

/-- EveryStepKeepsTheInvariant: one state that meets the invariant and steps, by a push. -/
theorem witness_invariant_and_step :
    Machine.Inv (State.reset.withFetchWord 8 1) ∧ ∃ t, step (State.reset.withFetchWord 8 1) = .next t := by
  have hC : 0 < Config.machine.C := Nat.two_pow_pos _
  refine ⟨⟨⟨List.Pairwise.nil, fun _ h => nomatch h⟩, ?_⟩, _, rfl⟩
  show State.reset.seen.Coherent
  simp [Outputs.Coherent, State.reset, State.Of.reset]
  exact (show Config.machine.b = 0 ↔ Config.machine.C = 1 by simp).trans (by omega)

/-- A state with entries in the store, and a record, that meets the invariant. -/
theorem test_invariant_holds_with_entries :
    Machine.Inv (cycle (mk small 3 0 [0x11, 0x22, 0x33] [stim small 0b0001#4 0x44])) := by
  unfold Machine.Inv Outputs.Coherent
  decide +kernel

/-- Program P1 from a power-on state. -/
def p1 : State.Of small :=
  (powerOn small).setInputs
    [stim small 0b1000#4 0, stim small 0b0000#4 0, stim small 0b0001#4 0x11, stim small 0b0001#4 0x22,
     stim small 0b0001#4 0x33, stim small 0b0000#4 0, stim small 0b0000#4 0, stim small 0b0010#4 0,
     stim small 0b0010#4 0, stim small 0b0010#4 0]

/-- CountersCountTheAcceptedPushesAndPops, HonouringTraceKeepsTheQueueInTheCells and
FifoOrderIsKeptOnHonouringTraces: program P1, with elements queued after seven of its cycles. -/
theorem witness_honouring_trace :
    initialises (presentCommand p1) = true ∧ quiet 7 (cycle p1) = true ∧ honouring 7 (cycle p1) = true ∧
      0 < (lengthOut (after 7 (cycle p1))).toNat := by decide +kernel

/-- CheckThenActProtocolNeverViolatesAndKeepsOrder: requests beyond full and beyond empty, and the four cases
of the flags. -/
theorem witness_requests :
    (fullOut (mk small 2 0 [] []) = false ∧ emptyOut (mk small 2 0 [] []) = false) ∧
      (fullOut (mk small 2 2 [] []) = false ∧ emptyOut (mk small 2 2 [] []) = true) ∧
      (fullOut (mk small 3 0 [] []) = true ∧ emptyOut (mk small 3 0 [] []) = false) ∧
      (fullOut (mk one 1 0 [] []) = true ∧ emptyOut (mk one 1 0 [] []) = true) ∧
      emptyOut (State.Of.reset two) = true ∧
      ∀ r ∈ [Request.tryPush 1, .tryPush 2, .tryPushPop 3, .tryPop, .tryPop, .nop],
        requestInitialises r = false := by decide +kernel

/-- UpperCounterBitsAreUnobservable: states that differ in the upper bit of each counter. -/
theorem witness_same_low :
    SameLow (mk small 1 6 [0x11] [stim small 0b0010#4 0]) (mk small 5 2 [0x11] [stim small 0b0010#4 0]) ∧
      (mk small 1 6 [] []).head ≠ (mk small 5 2 [] []).head :=
  ⟨⟨by decide +kernel, by decide +kernel, fun _ => rfl, rfl⟩, by decide +kernel⟩

/-- EachCounterHasASingleWriter: stimuli without `rst` and `init`, at states that agree on one counter and
differ in the other, each clause. -/
theorem witness_two_stimuli :
    (let x := stim small 0b0001#4 0x5A
     let y := stim small 0b0011#4 0x5A
     x.rst = false ∧ x.init = false ∧ y.rst = false ∧ y.init = false ∧ x.pop = false ∧
       x.push = y.push ∧ x.wdata = y.wdata) ∧
      (let x := stim small 0b0010#4 0
       let y := stim small 0b0011#4 0x5A
       x.rst = false ∧ x.init = false ∧ y.rst = false ∧ y.init = false ∧ x.push = false ∧
         x.pop = y.pop) ∧
      ((mk small 3 0 [1] []).head = (mk small 3 2 [1] []).head ∧
        (mk small 3 0 [1] []).tail ≠ (mk small 3 2 [1] []).tail ∧
        (mk small 3 0 [1] []).store = (mk small 3 2 [1] []).store) ∧
      ((mk small 3 0 [1] []).tail = (mk small 6 0 [1] []).tail ∧
        (mk small 3 0 [1] []).head ≠ (mk small 6 0 [1] []).head ∧
        (mk small 3 0 [1] []).store = (mk small 6 0 [1] []).store) := by decide +kernel

/-- CountersAndStoreAreTheWholeStateOfTheBlock: states that differ in the bit and in the record. -/
theorem witness_same_counters_and_store :
    let s := mk small 3 1 [1, 2, 3] []
    let t := ({ s with initialised := false }).capture (.push 9)
    s.head = t.head ∧ s.tail = t.tail ∧ s.store = t.store ∧ s.initialised ≠ t.initialised ∧
      s.seen ≠ t.seen := by decide +kernel

/-- PushpopReadsTheCellBeforeItWrites. -/
theorem witness_equal_indices : wrIdxOut (mk small 6 2 [] []) = rdIdxOut (mk small 6 2 [] []) := by
  decide +kernel

/-- PushedElementIsVisibleFromTheNextCycle, PopWhenEmptyMakesTheBufferReportFull: an empty state at each end
of the range of `C`, and the capacity. -/
theorem witness_empty :
    1 < small.C ∧ emptyOut (mk small 6 2 [] []) = true ∧ 1 < two.C ∧ emptyOut (mk two 1 1 [] []) = true ∧
      emptyOut (mk one 1 0 [] []) = true := by decide +kernel

/-- PushpopIsPopThenPush, HonestCommandsActOnTheQueue: a state that is neither empty nor full, and an empty
one. -/
theorem witness_between :
    emptyOut (mk small 1 7 [] []) = false ∧ fullOut (mk small 1 7 [] []) = false ∧
      emptyOut (mk small 2 2 [] []) = true := by decide +kernel

/-- PushWhenFullMakesTheBufferReportEmpty: a full state, and pushes beyond full. -/
theorem witness_full_and_pushes :
    let s := mk small 3 0 [1, 2, 3] [stim small 0b0001#4 4, stim small 0b0001#4 5]
    1 < small.C ∧ fullOut s = true ∧ 1 ≤ 2 ∧ (∃ j, j < small.C - 1) ∧
      ∀ i ∈ commands 2 s, pushAccepted i = true ∧ popAccepted i = false :=
  ⟨by decide +kernel, by decide +kernel, by decide, ⟨2, by decide +kernel⟩, by decide +kernel⟩

/-- PopWhenEmptyMakesTheBufferReportFull: `C` pops from empty. -/
theorem witness_empty_and_pops :
    let s := mk two 1 1 [7, 8] [stim two 0b0010#4 0, stim two 0b0010#4 0]
    emptyOut s = true ∧ ∀ i ∈ commands two.C s, i = .pop := by decide +kernel

/-- PushpopAtItsCorners: each clause: length 0, length `C - 1`, and between. -/
theorem witness_pushpop_corners :
    (1 < small.C ∧ (lengthOut (mk small 2 2 [] [])).toNat = 0) ∧
      (1 < small.C ∧ (lengthOut (mk small 3 0 [] [])).toNat = small.C - 1) ∧
      (1 ≤ (lengthOut (mk small 2 1 [] [])).toNat ∧ (lengthOut (mk small 2 1 [] [])).toNat + 2 ≤ small.C) ∧
      (1 ≤ (lengthOut (mk small 2 0 [] [])).toNat ∧
        (lengthOut (mk small 2 0 [] [])).toNat + 2 ≤ small.C) := by decide +kernel

/-- CounterWrapIsInvisible: counters at their last value. -/
theorem witness_counters_at_the_last_value :
    (mk small 7 6 [] []).head.toNat = 2 ^ small.W - 1 ∧ (mk small 1 7 [] []).tail.toNat = 2 ^ small.W - 1 := by
  decide +kernel

/-- ConsecutivePushesFromEmptyAreCountedAndReturned: `C - 1` pushes after INIT, and as many pops. -/
theorem witness_pushes_then_pops :
    let s := mk two 3 1 [] [stim two 0b0100#4 0, stim two 0b0001#4 9, stim two 0b0010#4 0]
    initialises (presentCommand s) = true ∧ 1 ≤ two.C - 1 ∧ 0 ≤ two.C - 1 ∧
      (∀ i ∈ commands 1 (cycle s), pushAccepted i = true ∧ popAccepted i = false) ∧
      ∀ i ∈ commands 1 (after 1 (cycle s)), i = .pop := by decide +kernel

/-- QueriesArePureAndIdempotent: a read, and cycles of NOP. -/
theorem witness_queries :
    Instr.pushViol.isCommand = false ∧
      ∀ i ∈ commands 2 (mk small 3 1 [] [stim small 0b0000#4 0xFF]), i = .nop := by decide +kernel

/-- ACheckStaysValidAgainstTheOtherSide: two pops after the producer's check, two pushes after the
consumer's. -/
theorem witness_checks :
    (let s := mk small 2 0 [1, 2] [stim small 0b0010#4 0, stim small 0b0010#4 0]
     quiet 2 s = true ∧ honouring 2 s = true ∧ fullOut s = false ∧ pushCount 2 s = 0) ∧
      (let s := mk small 1 0 [1] [stim small 0b0001#4 2, stim small 0b0001#4 3]
       quiet 2 s = true ∧ honouring 2 s = true ∧ emptyOut s = false ∧ popCount 2 s = 0) := by
  decide +kernel

/-- InitialisationOverridesPushAndPop: INIT with the push and the pop bit set, and RESET with all. -/
theorem witness_initialisation :
    initialises (presentCommand (mk small 3 0 [] [stim small 0b0111#4 0x5A])) = true ∧
      initialises (presentCommand (mk small 3 0 [] [stim small 0b1111#4 0x5A])) = true := by decide +kernel

/-- InitialisationDefinesThePowerOnState: both cases of the stimulus. -/
theorem witness_power_on :
    initialises (decode (stim small 0b0100#4 0)) = true ∧
      initialises (decode (stim small 0b0011#4 1)) = false := by decide

/-- CountersAreDefinedForEverAfterInitialisation: two power-on states with the same inputs. -/
theorem witness_two_power_ons :
    let s := mk small 6 3 [] [stim small 0b0001#4 1, stim small 0b1000#4 0, stim small 0b0001#4 2]
    let t := mk small 1 5 [] [stim small 0b0001#4 1, stim small 0b1000#4 0, stim small 0b0001#4 2]
    s.inputs = t.inputs ∧ (commands 3 s).any initialises = true := by decide +kernel

/-- CheckedModeFaultsExactlyOnViolations: a run that honours the protocol and one that does not. -/
theorem witness_checked_mode :
    honouring 2 (mk small 2 0 [1, 2] [stim small 0b0010#4 0, stim small 0b0010#4 0]) = true ∧
      honouring 3 (mk small 2 0 [1, 2] [stim small 0b0010#4 0, stim small 0b0010#4 0, stim small 0b0010#4 0])
        = false := by decide +kernel

end Sys2Proof.Tests
end

section
/-! PROOFS. The obligations on the build-time configuration and on pointer masking
(spec/00_scope.md R2, R3, R5, R102). -/

namespace Sys2Proof.Machine

/-! ### The capacity (R2) -/

theorem R_ne_zero (c : Config) : c.R ≠ 0 := Nat.ne_of_gt c.R_pos

theorem C_le_R (c : Config) : c.C ≤ c.R := Nat.log2_self_le (R_ne_zero c)

/-- No power of two lies above the capacity and within the requested size. -/
theorem two_pow_le_C (c : Config) {k : Nat} (h : 2 ^ k ≤ c.R) : 2 ^ k ≤ c.C :=
  Nat.pow_le_pow_right Nat.two_pos ((Nat.le_log2 (R_ne_zero c)).mpr h)

/-- A requested size between two neighbouring powers of two has the lower one as its capacity. -/
theorem b_and_C_of_range (c : Config) (k : Nat) (lo : 2 ^ k ≤ c.R) (hi : c.R < 2 ^ (k + 1)) :
    c.b = k ∧ c.C = 2 ^ k := by
  have hb : c.b = k := (Nat.log2_eq_iff (R_ne_zero c)).mpr ⟨lo, hi⟩
  exact ⟨hb, congrArg (2 ^ ·) hb⟩

/-- Settles O1: the capacity is below the request and above every power of two that is; each example
of the rule is a range between two powers of two. -/
theorem capacityIsRoundedDownToAPowerOfTwo : Obligations.CapacityIsRoundedDownToAPowerOfTwo := by
  intro c
  refine ⟨rfl, C_le_R c, fun k => two_pow_le_C c, ?one, ?two, ?four, ?hundred, ?top⟩
  case one => exact fun h => b_and_C_of_range c 0 (by omega) (by omega)
  case two => exact fun lo hi => (b_and_C_of_range c 1 (by omega) (by omega)).2
  case four => exact fun lo hi => (b_and_C_of_range c 2 (by omega) (by omega)).2
  case hundred => exact fun h => b_and_C_of_range c 6 (by omega) (by omega)
  case top => exact fun lo hi => b_and_C_of_range c 7 (by omega) (by omega)

/-! ### The build-time check (R5, R102) -/

section
variable {R W DW : Nat} {head tail : BitVec W} {cell : Nat → BitVec DW}

theorem build?_eq_none_iff :
    Config.build? R W DW head tail cell = none ↔ R = 0 ∨ DW = 0 ∨ W ≤ Nat.log2 R := by
  have hbad : ¬ (1 ≤ R ∧ 1 ≤ DW ∧ Nat.log2 R < W) ↔ R = 0 ∨ DW = 0 ∨ W ≤ Nat.log2 R := by omega
  rw [Config.build?, ← hbad]
  split
  next hgood => exact iff_of_false (Option.some_ne_none _) (not_not_intro hgood)
  next hfails => exact iff_of_true rfl hfails

/-- A build that succeeds answers the configuration it was asked for. -/
theorem build?_eq_some {c : Config} (h : Config.build? R W DW head tail cell = some c) :
    c.R = R ∧ c.W = W ∧ c.DW = DW := by
  rw [Config.build?, Option.dite_none_right_eq_some] at h
  obtain ⟨_, hc⟩ := h
  cases hc
  exact ⟨rfl, rfl, rfl⟩

end

/-- R5 in the form that a counter counts at least two rounds of the indices. -/
theorem C_le_half_range (c : Config) : c.C ≤ 2 ^ (c.W - 1) :=
  Nat.pow_le_pow_right Nat.two_pos (Nat.le_sub_one_of_lt c.W_wide)

/-- Settles O2, by the two answers of the check and the proofs that a configuration carries. -/
theorem buildRefusesExactlyTheBadConfigurations :
    Obligations.BuildRefusesExactlyTheBadConfigurations :=
  ⟨fun _ _ _ _ _ _ => ⟨build?_eq_none_iff, fun _ => build?_eq_some⟩,
    fun c => ⟨c.R_pos, c.DW_pos, c.W_wide, c.W_wide, C_lt c, C_le_half_range c⟩⟩

/-! ### Pointer masking (R3) -/

section
variable {c : Config}

theorem idx_toNat_eq_and_MASK (v : Counter c) : (idx v).toNat = v.toNat &&& c.MASK := by
  rw [idx_toNat, and_MASK]

theorem idx_eq_extractLsb' (v : Counter c) : idx v = v.extractLsb' 0 c.b :=
  BitVec.eq_of_toNat_eq (by rw [idx_toNat, BitVec.extractLsb'_toNat, Nat.shiftRight_zero])

theorem idx_le_MASK (v : Counter c) : (idx v).toNat ≤ c.MASK := Nat.le_sub_one_of_lt (idx_lt v)

end

/-- Settles O3, from the laws of the masked index. -/
theorem maskingTakesTheCounterModuloTheCapacity :
    Obligations.MaskingTakesTheCounterModuloTheCapacity := fun c =>
  ⟨and_MASK c, fun v =>
    ⟨idx_toNat_eq_and_MASK v, idx_toNat v, idx_eq_extractLsb' v, idx_le_MASK v, idx_succ v⟩⟩

end Sys2Proof.Machine
end

section
/-! PROOFS. The obligation on the single writer of each counter (spec/10_state.md R22): what a cycle under
a stimulus without `rst` and `init` does to each field, by that side's own request wire. -/

namespace Sys2Proof.Machine

section
variable {c : Config} {x : Stimulus c} (hr : x.rst = false) (hi : x.init = false)
include hr hi

/-! ### The command of a stimulus that does not initialise (R52) -/

/-- The four commands without initialisation, by the two request wires. -/
theorem decode_of_no_init : decode x =
    if x.pop then if x.push then .pushpop x.wdata.toNat else .pop
    else if x.push then .push x.wdata.toNat else .nop := by
  simp only [decode, hr, hi, Bool.false_eq_true, if_false]
  cases x.pop <;> cases x.push <;> rfl

theorem initialises_decode_of_no_init : initialises (decode x) = false := by
  rw [decode_of_no_init hr hi]
  cases x.pop <;> cases x.push <;> rfl

theorem pushOperand_decode_of_no_init :
    pushOperand (decode x) = if x.push then some x.wdata.toNat else none := by
  rw [decode_of_no_init hr hi]
  cases x.pop <;> cases x.push <;> rfl

theorem pushAccepted_decode_of_no_init : pushAccepted (decode x) = x.push := by
  rw [pushAccepted, pushOperand_decode_of_no_init hr hi]
  cases x.push <;> rfl

theorem popAccepted_decode_of_no_init : popAccepted (decode x) = x.pop := by
  rw [decode_of_no_init hr hi]
  cases x.pop <;> cases x.push <;> rfl

/-! ### The cycle under such a stimulus (R70, R71) -/

theorem cycle_withPresent_head (s : State.Of c) :
    (cycle (s.withPresent x)).head = if x.push then succ s.head else s.head := by
  simp [cycle_head, presentCommand, initialises_decode_of_no_init hr hi,
    pushAccepted_decode_of_no_init hr hi]

theorem cycle_withPresent_tail (s : State.Of c) :
    (cycle (s.withPresent x)).tail = if x.pop then succ s.tail else s.tail := by
  simp [cycle_tail, presentCommand, initialises_decode_of_no_init hr hi,
    popAccepted_decode_of_no_init hr hi]

theorem read_cycle_withPresent (s : State.Of c) (n : Nat) :
    Store.read (cycle (s.withPresent x)).store n =
      if x.push ∧ n = (idx s.head).toNat then x.wdata else Store.read s.store n := by
  rw [cycle_store, presentCommand, withPresent_present, pushOperand_decode_of_no_init hr hi]
  cases x.push with
  | false => simp
  | true => simp [Store.read_write, writeCell, wdataOf]

theorem cycle_withPresent_ret (s : State.Of c) :
    (cycle (s.withPresent x)).ret =
      if x.pop then some (Store.read s.store (idx s.tail).toNat) else none := by
  rw [cycle_ret, presentCommand, withPresent_present, returned, popAccepted_decode_of_no_init hr hi]
  rfl

end

/-- Settles O37: after the cycle, `head` and the cells are functions of `head`, the cells, `push` and
`wdata`, and `tail` and the element returned are functions of `tail`, the cells and `pop`. -/
theorem eachCounterHasASingleWriter : Obligations.EachCounterHasASingleWriter := by
  intro c s t x y hxr hxi hyr hyi
  simp only [cycle_withPresent_head hxr hxi, cycle_withPresent_head hyr hyi,
    cycle_withPresent_tail hxr hxi, cycle_withPresent_tail hyr hyi,
    read_cycle_withPresent hxr hxi, read_cycle_withPresent hyr hyi,
    cycle_withPresent_ret hxr hxi, cycle_withPresent_ret hyr hyi]
  refine ⟨?headStays, ?tailStays, ?newHead, ?newCells, ?newTail, ?returnedElement⟩
  case headStays => intro hpush; simp [hpush]
  case tailStays => intro hpop; simp [hpop]
  case newHead => intro hhead hpush; rw [hhead, hpush]
  case newCells => intro hhead hpush hwdata hcells n; rw [hhead, hpush, hwdata, hcells]
  case newTail => intro htail hpop; rw [htail, hpop]
  case returnedElement => intro htail hpop hcells; rw [htail, hpop, hcells]

end Sys2Proof.Machine
end

section
/-! PROOFS. The obligations on the store's ports and on the order of the elements (spec/20_memory.md R36,
R38, R44): the cells as a window of the store, what a command does to the queue they hold, and the
induction over an honouring trace. -/

namespace Sys2Proof.Machine

variable {c : Config}

/-! ### The write port and the read port (R36, R38) -/

/-- R54: what an accepted push writes is on the `wdata` wires. -/
theorem wdataOf_pushOperand_decode {x : Stimulus c} {v : Nat} (h : pushOperand (decode x) = some v) :
    wdataOf c v = x.wdata := by
  cases hr : x.rst with
  | true => simp [decode, hr, pushOperand] at h
  | false =>
    cases hi : x.init with
    | true => simp [decode, hr, hi, pushOperand] at h
    | false =>
      rw [pushOperand_decode_of_no_init hr hi, Option.ite_none_right_eq_some] at h
      obtain ⟨-, hv⟩ := h
      cases hv
      simp [wdataOf]

/-- Settles O38, by whether the command has an operand to push. -/
theorem onlyAnAcceptedPushWritesAndOnlyItsCell :
    Obligations.OnlyAnAcceptedPushWritesAndOnlyItsCell := by
  intro c s n
  rw [cycle_store, pushAccepted]
  cases hop : pushOperand (presentCommand s) with
  | none => simp
  | some v => simp [Store.read_write, writeCell, wrIdxOut, wdataOf_pushOperand_decode hop]

/-- Settles O39: the environment captures `rdata` of the state before the write, and the write goes to
the cell both indices name. -/
theorem pushpopReadsTheCellBeforeItWrites : Obligations.PushpopReadsTheCellBeforeItWrites := by
  intro c v s (hidx : idx s.head = idx s.tail)
  refine ⟨beq_iff_eq.mpr hidx, _, rfl, rfl, ?cell⟩
  case cell =>
    have hcell : (rdIdxOut s).toNat = writeCell s := congrArg BitVec.toNat hidx.symm
    exact (Store.read_write ..).trans (if_pos hcell)

/-! ### The presented queue as a window of the cells (R20) -/

/-- The content of the `n` cells from `idx(t)` on, in cyclic order. -/
def window (m : Store c) (t : Counter c) (n : Nat) : List (Elem c) :=
  (List.range n).map (fun j => Store.read m (idx (t + BitVec.ofNat c.W j)).toNat)

theorem queue_eq_window (s : State.Of c) : queue s = window s.store s.tail (occupancy s).toNat := by
  rw [queue, lengthOut_toNat, window]

theorem window_succ_last (m : Store c) (t : Counter c) (n : Nat) :
    window m t (n + 1) = window m t n ++ [Store.read m (idx (t + BitVec.ofNat c.W n)).toNat] := by
  simp [window, List.range_succ]

theorem window_succ_first (m : Store c) (t : Counter c) (n : Nat) :
    window m t (n + 1) = Store.read m (idx t).toNat :: window m (succ t) n := by
  have hshift (j : Nat) : t + BitVec.ofNat c.W (j + 1) = succ t + BitVec.ofNat c.W j := by
    rw [BitVec.ofNat_add, BitVec.add_comm (BitVec.ofNat c.W j), ← BitVec.add_assoc]
    rfl
  rw [window, List.range_succ_eq_map, List.map_cons, List.map_map, BitVec.add_zero]
  exact congrArg _ (List.map_congr_left fun j _ => by rw [Function.comp_apply, hshift])

/-- A write outside the window does not show in it. -/
theorem window_write_of_outside {m : Store c} {t : Counter c} {n i : Nat} (v : Elem c)
    (h : ∀ j < n, (idx (t + BitVec.ofNat c.W j)).toNat ≠ i) :
    window (Store.write m i v) t n = window m t n := by
  refine List.map_congr_left fun j hj => ?_
  rw [Store.read_write, if_neg (h j (List.mem_range.mp hj))]

/-- The cells from `idx(tail)` on reach `idx(head)` after `occupancy` of them, and not before. -/
theorem idx_tail_add_eq_writeCell_iff (s : State.Of c) {j : Nat} (hj : j ≤ (occupancy s).toNat) :
    (idx (s.tail + BitVec.ofNat c.W j)).toNat = writeCell s ↔ j = (occupancy s).toNat := by
  have hhead := idx_lt s.head
  have htail := idx_lt s.tail
  have hocc := occupancy_cases s
  rw [idx_add, writeCell]
  rcases Nat.lt_or_ge ((idx s.tail).toNat + j) c.C with hlt | hge
  · rw [Nat.mod_eq_of_lt hlt]
    omega
  · rw [Nat.mod_eq_sub_mod hge, Nat.mod_eq_of_lt (by omega)]
    omega

/-! ### What the halves of a command do to the queue (R70, R71, R72) -/

theorem occupancy_pushHalf {s : State.Of c} (hfull : fullOut s = false) (v : Elem c) :
    (occupancy (s.pushHalf v)).toNat = (occupancy s).toNat + 1 := by
  rw [fullOut_eq_false_iff] at hfull
  rw [occupancy_push (s := s) (t := s.pushHalf v) rfl rfl, if_neg hfull.ne]

theorem occupancy_popHalf {s : State.Of c} (hempty : emptyOut s = false) :
    (occupancy s).toNat = (occupancy s.popHalf).toNat + 1 := by
  rw [emptyOut_eq_false_iff] at hempty
  rw [occupancy_pop (s := s) (t := s.popHalf) rfl rfl, if_neg hempty.ne', Nat.sub_add_cancel hempty]

theorem queue_pushHalf {s : State.Of c} (hfull : fullOut s = false) (v : Elem c) :
    queue (s.pushHalf v) = queue s ++ [v] := by
  have hlast : (idx (s.tail + BitVec.ofNat c.W (occupancy s).toNat)).toNat = writeCell s :=
    (idx_tail_add_eq_writeCell_iff s le_rfl).mpr rfl
  have hold : ∀ j < (occupancy s).toNat, (idx (s.tail + BitVec.ofNat c.W j)).toNat ≠ writeCell s :=
    fun j hj h => hj.ne ((idx_tail_add_eq_writeCell_iff s hj.le).mp h)
  rw [queue_eq_window, queue_eq_window, occupancy_pushHalf hfull v, pushHalf_store, pushHalf_tail,
    window_succ_last, window_write_of_outside v hold, hlast, Store.read_write, if_pos rfl]

theorem queue_eq_rdata_cons {s : State.Of c} (hempty : emptyOut s = false) :
    queue s = rdataOut s :: queue s.popHalf := by
  rw [queue_eq_window, queue_eq_window, occupancy_popHalf hempty, window_succ_first]
  rfl

/-- The pop of a PUSHPOP makes room for its push, so it needs no room in the buffer (R76). -/
theorem queue_append_of_pushpop {s : State.Of c} (hempty : emptyOut s = false) (v : Elem c) :
    queue s ++ [v] = rdataOut s :: queue (s.pushHalf v).popHalf := by
  have hroom : fullOut s.popHalf = false := by
    rw [fullOut_eq_false_iff, ← occupancy_popHalf hempty]
    exact occupancy_lt s
  rw [queue_eq_rdata_cons hempty, List.cons_append, ← queue_pushHalf hroom]
  rfl

/-! ### What a cycle and a trace do to the queue (R44) -/

/-- The element a command pushes, if it pushes one. -/
def pushedBy (c : Config) (i : Instr) : Option (Elem c) := (pushOperand i).map (wdataOf c)

/-- R20: command `i` in state `s` is one the protocol allows: no push at full, no pop at empty. -/
def Honest (i : Instr) (s : State.Of c) : Prop :=
  (pushAccepted i = true → fullOut s = false) ∧ (popAccepted i = true → emptyOut s = false)

/-- An honest command that does not initialise moves elements from the push through the queue to the
pop, in order. -/
theorem execIn_moves_queue {i : Instr} {s : State.Of c} (hcommand : i.isCommand = true)
    (hquiet : initialises i = false) (hhonest : Honest i s) :
    ∃ t, execIn i s = .next t ∧
      queue s ++ (pushedBy c i).toList = t.ret.toList ++ queue t := by
  obtain ⟨hpush, hpop⟩ := hhonest
  cases i <;> cases hcommand
  case reset | init => cases hquiet
  case nop => exact ⟨_, rfl, List.append_nil _⟩
  case push v => exact ⟨_, rfl, (queue_pushHalf (s := s) (hpush rfl) (wdataOf c v)).symm⟩
  case pop => exact ⟨_, rfl, (List.append_nil _).trans (queue_eq_rdata_cons (hpop rfl))⟩
  case pushpop v => exact ⟨_, rfl, queue_append_of_pushpop (hpop rfl) (wdataOf c v)⟩

theorem cycle_moves_queue {s : State.Of c} (hquiet : initialises (presentCommand s) = false)
    (hhonest : Honest (presentCommand s) s) :
    queue s ++ (pushedBy c (presentCommand s)).toList = (cycle s).ret.toList ++ queue (cycle s) := by
  obtain ⟨t, hstep, hmoves⟩ :=
    execIn_moves_queue (s := s.advance) (decode_isCommand s.present) hquiet hhonest
  obtain rfl : cycle s = t := Host.Outcome.next.inj ((stepIn_command s).1.symm.trans hstep)
  exact hmoves

theorem queue_cycle_of_initialises {s : State.Of c} (h : initialises (presentCommand s) = true) :
    queue (cycle s) = [] := by
  have hempty : emptyOut (cycle s) = true := by
    simp [emptyOut, cycle_head, cycle_tail, h]
  rw [queue_eq_window, (emptyOut_iff _).mp hempty]
  rfl

theorem honouring_succ (k : Nat) (s : State.Of c) :
    honouring (k + 1) s = true ↔ Honest (presentCommand s) s ∧ honouring k (cycle s) = true := by
  simp [honouring, Honest, ← Bool.not_eq_true, imp_iff_not_or]

theorem quiet_succ (k : Nat) (s : State.Of c) :
    quiet (k + 1) s = true ↔ initialises (presentCommand s) = false ∧ quiet k (cycle s) = true := by
  simp [quiet, commands_succ]

theorem pushedIn_succ (k : Nat) (s : State.Of c) :
    pushedIn (k + 1) s = (pushedBy c (presentCommand s)).toList ++ pushedIn k (cycle s) := by
  rw [pushedIn, commands_succ, pushedBy, pushedIn]
  cases h : pushOperand (presentCommand s) <;> simp [h]

/-- Over an honouring trace, what was queued and what is pushed comes out in order or stays queued. -/
theorem trace_moves_queue {k : Nat} {s : State.Of c} (hquiet : quiet k s = true)
    (hhonouring : honouring k s = true) :
    queue s ++ pushedIn k s = returnedIn k s ++ queue (after k s) := by
  induction k generalizing s with
  | zero => exact List.append_nil _
  | succ k ih =>
    obtain ⟨hquietNow, hquietLater⟩ := (quiet_succ k s).mp hquiet
    obtain ⟨hhonestNow, hhonouringLater⟩ := (honouring_succ k s).mp hhonouring
    calc queue s ++ pushedIn (k + 1) s
        = (queue s ++ (pushedBy c (presentCommand s)).toList) ++ pushedIn k (cycle s) := by
          rw [pushedIn_succ, List.append_assoc]
      _ = (cycle s).ret.toList ++ (queue (cycle s) ++ pushedIn k (cycle s)) := by
          rw [cycle_moves_queue hquietNow hhonestNow, List.append_assoc]
      _ = returnedIn (k + 1) s ++ queue (after (k + 1) s) := by
          rw [ih hquietLater hhonouringLater, ← List.append_assoc, returnedIn, after]

/-- Settles O34: the queue is empty after the initialisation, and the trace moves elements through it. -/
theorem fifoOrderIsKeptOnHonouringTraces : Obligations.FifoOrderIsKeptOnHonouringTraces := by
  intro c k s hinit hquiet hhonouring
  have hmoves := trace_moves_queue hquiet hhonouring
  rwa [queue_cycle_of_initialises hinit, List.nil_append] at hmoves

end Sys2Proof.Machine
end

section
/-! PROOFS. The obligations on the decoder's table, the stimulus word and the redundant command words
(spec/30_encoding.md R52, R53, R56): a stimulus and its word determine each other, and the decoder is a
function of the command word and the number on the `wdata` wires. -/

namespace Sys2Proof.Machine

variable {c : Config}

/-! ### The stimulus word (R53) -/

@[simp] theorem ofCw_cw (st : Stimulus c) : Stimulus.ofCw st.cw st.wdata = st := by
  have hbits : ∀ rst init pop push : Bool,
      let cw : BitVec 4 :=
        BitVec.ofBool rst ++ BitVec.ofBool init ++ BitVec.ofBool pop ++ BitVec.ofBool push
      cw.getLsbD 3 = rst ∧ cw.getLsbD 2 = init ∧ cw.getLsbD 1 = pop ∧ cw.getLsbD 0 = push := by
    decide
  obtain ⟨hrst, hinit, hpop, hpush⟩ := hbits st.rst st.init st.pop st.push
  simp only [Stimulus.ofCw, Stimulus.cw, hrst, hinit, hpop, hpush]

theorem toNat_word (st : Stimulus c) :
    st.word.toNat = st.cw.toNat * 2 ^ c.DW + st.wdata.toNat := by
  rw [Stimulus.word, BitVec.toNat_append, ← Nat.shiftLeft_add_eq_or_of_lt st.wdata.isLt,
    Nat.shiftLeft_eq]

theorem toNat_word_ofCw (cw : BitVec 4) (w : Elem c) :
    (Stimulus.ofCw cw w).word.toNat = cw.toNat * 2 ^ c.DW + w.toNat := by
  rw [toNat_word, Laws.CommandWordMatchesItsRow.cw_ofCw]
  rfl

theorem ofWord_word (st : Stimulus c) : Stimulus.ofWord st.word = st := by
  rw [Stimulus.ofWord, Stimulus.word, BitVec.extractLsb'_append_eq_left,
    BitVec.extractLsb'_append_eq_right, ofCw_cw]

theorem word_ofWord (sw : BitVec (4 + c.DW)) : (Stimulus.ofWord sw : Stimulus c).word = sw := by
  rw [Stimulus.ofWord, Stimulus.word, Laws.CommandWordMatchesItsRow.cw_ofCw]
  exact BitVec.extractLsb'_append_extractLsb'

/-- Settles O23, from the two fields of the word and the command words the encoder uses. -/
theorem stimulusWordIsCommandWordThenData : Obligations.StimulusWordIsCommandWordThenData := by
  refine fun c => ⟨fun st => ⟨toNat_word st, ofWord_word st⟩, word_ofWord, fun hDW => ?canonical⟩
  case canonical =>
    simp only [encode, Option.map_some, toNat_word_ofCw, hDW, BitVec.ofNat_eq_ofNat,
      BitVec.toNat_ofNat, Nat.zero_mod]
    refine ⟨rfl, rfl, rfl, rfl, fun v hv => ?pushes⟩
    case pushes =>
      have hfits : v % 2 ^ 8 = v := Nat.mod_eq_of_lt hv
      rw [hfits]
      exact ⟨rfl, rfl⟩

/-! ### The decoder as a function of the command word (R52) -/

/-- The command of a command word and the number on the `wdata` wires, in any configuration. -/
def commandOf (cw : BitVec 4) (value : Nat) : Instr :=
  if cw.getLsbD 3 then .reset
  else if cw.getLsbD 2 then .init
  else if cw.getLsbD 1 then if cw.getLsbD 0 then .pushpop value else .pop
  else if cw.getLsbD 0 then .push value else .nop

theorem decode_of_rst {st : Stimulus c} (h : st.rst = true) : decode st = .reset := if_pos h

theorem decode_of_init {st : Stimulus c} (hr : st.rst = false) (hi : st.init = true) :
    decode st = .init := by
  simp [decode, hr, hi]

theorem decode_ofCw (cw : BitVec 4) (w : Elem c) :
    decode (Stimulus.ofCw cw w) = commandOf cw w.toNat := by
  rw [commandOf]
  cases hr : cw.getLsbD 3 with
  | true => exact decode_of_rst hr
  | false =>
    cases hi : cw.getLsbD 2 with
    | true => exact decode_of_init hr hi
    | false => exact decode_of_no_init hr hi

theorem mnemonic_commandOf (cw : BitVec 4) (value : Nat) :
    (commandOf cw value).mnemonic = (commandOf cw 0).mnemonic := by
  unfold commandOf
  split_ifs <;> rfl

/-- The table against the decoder, at each of the 16 command words. -/
theorem mnemonic_rowOf : ∀ cw : BitVec 4,
    (rowOf cw).map CommandRow.mnemonic = some (commandOf cw 0).mnemonic := by
  decide

theorem exists_rowOf_cw (st : Stimulus c) :
    ∃ row, rowOf st.cw = some row ∧ row.mnemonic = (decode st).mnemonic := by
  have hst : (decode st).mnemonic = (commandOf st.cw 0).mnemonic := by
    rw [← mnemonic_commandOf st.cw st.wdata.toNat, ← decode_ofCw, ofCw_cw]
  rw [hst]
  exact Option.map_eq_some_iff.mp (mnemonic_rowOf st.cw)

/-! ### What is accepted, and the cycle under `rst` or `init` (R52, R104) -/

theorem initialises_decode_iff (st : Stimulus c) :
    initialises (decode st) = true ↔ st.rst = true ∨ st.init = true := by
  cases hr : st.rst with
  | true => simp [decode_of_rst hr, initialises]
  | false =>
    cases hi : st.init with
    | true => simp [decode_of_init hr hi, initialises]
    | false => simp [initialises_decode_of_no_init hr hi]

theorem accepted_decode_iff (st : Stimulus c) :
    (pushAccepted (decode st) = true ↔ st.push = true ∧ st.rst = false ∧ st.init = false) ∧
      (popAccepted (decode st) = true ↔ st.pop = true ∧ st.rst = false ∧ st.init = false) := by
  by_cases h : st.rst = true ∨ st.init = true
  · obtain ⟨hpush, hpop⟩ := initialises_accepts ((initialises_decode_iff st).mpr h)
    have hquiet : ¬ (st.rst = false ∧ st.init = false) := by simpa [imp_iff_not_or] using h
    simp [pushAccepted, hpush, hpop, hquiet]
  · obtain ⟨hr, hi⟩ : st.rst = false ∧ st.init = false := by simpa using h
    simp [pushAccepted_decode_of_no_init hr hi, popAccepted_decode_of_no_init hr hi, hr, hi]

/-- A cycle that initialises zeroes the counters, writes no cell and returns no element. -/
theorem cycle_of_initialises {s : State.Of c} (h : initialises (presentCommand s) = true) :
    (cycle s).head = 0 ∧ (cycle s).tail = 0 ∧ (cycle s).store = s.store ∧ (cycle s).ret = none := by
  obtain ⟨hpush, hpop⟩ := initialises_accepts h
  simp [cycle_head, cycle_tail, cycle_store, cycle_ret, returned, h, hpush, hpop]

/-- Settles O21, by the 16 words of the table, the two requests and the cycle that initialises. -/
theorem decodeSelectsTheFirstMatchingRow : Obligations.DecodeSelectsTheFirstMatchingRow := by
  intro c st
  obtain ⟨hpush, hpop⟩ := accepted_decode_iff st
  refine ⟨exists_rowOf_cw st, hpush, hpop, fun s h => ?cycle⟩
  case cycle =>
    obtain ⟨hhead, htail, hstore, hret⟩ :=
      cycle_of_initialises (s := s.withPresent st) ((initialises_decode_iff st).mpr h)
    exact ⟨hhead, htail, fun n => congrArg (Store.read · n) hstore, hret⟩

/-! ### The redundant command words (R56) -/

/-- A cycle reads the stimulus through its command alone. -/
theorem stepIn_withPresent_congr {x y : Stimulus c} (h : decode x = decode y) (s : State.Of c) :
    stepIn (s.withPresent x) = stepIn (s.withPresent y) := by
  simp only [stepIn, presentCommand, withPresent_present, withPresent_advance, h]

/-- Settles O25: the counts are of `commandOf`, in no configuration, and a redundant word has the command
of the canonical one. -/
theorem allSixteenCommandWordsAreDefined : Obligations.AllSixteenCommandWordsAreDefined := by
  refine fun c => ⟨?counts, fun s st => ⟨?redundantReset, ?redundantInit⟩⟩
  case counts =>
    simp only [decode_ofCw, BitVec.ofNat_eq_ofNat, BitVec.toNat_ofNat, Nat.zero_mod]
    decide
  case redundantReset =>
    exact fun hr => stepIn_withPresent_congr ((decode_of_rst hr).trans (decode_of_rst rfl).symm) s
  case redundantInit =>
    exact fun hr hi =>
      stepIn_withPresent_congr ((decode_of_init hr hi).trans (decode_of_init rfl rfl).symm) s

end Sys2Proof.Machine
end

section
/-! PROOFS. The obligations on the initialisation and idle commands (spec/40_init.md R65, R66, R67): which
stimuli decode to RESET, INIT and NOP, what a cycle shows when nothing is pushed or popped, and the outputs
of a state whose counters are 0. -/

namespace Sys2Proof.Machine

variable {c : Config}

/-! ### The stimuli of RESET, INIT and NOP (R52) -/

theorem decode_eq_reset_iff (st : Stimulus c) : decode st = .reset ↔ st.rst = true := by
  refine ⟨fun h => ?_, decode_of_rst⟩
  have hreq : st.rst = true ∨ st.init = true := (initialises_decode_iff st).mp (by rw [h]; rfl)
  cases hr : st.rst with
  | true => rfl
  | false =>
    have hi : st.init = true := by simpa [hr] using hreq
    cases (decode_of_init hr hi).symm.trans h

theorem decode_eq_init_iff (st : Stimulus c) :
    decode st = .init ↔ st.rst = false ∧ st.init = true := by
  refine ⟨fun h => ?_, fun ⟨hr, hi⟩ => decode_of_init hr hi⟩
  have hreq : st.rst = true ∨ st.init = true := (initialises_decode_iff st).mp (by rw [h]; rfl)
  cases hr : st.rst with
  | true => cases (decode_of_rst hr).symm.trans h
  | false => exact ⟨rfl, by simpa [hr] using hreq⟩

theorem decode_eq_nop_iff (st : Stimulus c) : decode st = .nop ↔ st.cw = 0b0000#4 := by
  constructor
  · intro h
    obtain ⟨hr, hi⟩ : st.rst = false ∧ st.init = false := by
      simpa [h, initialises] using initialises_decode_iff st
    have hpush : st.push = false := by rw [← pushAccepted_decode_of_no_init hr hi, h]; rfl
    have hpop : st.pop = false := by rw [← popAccepted_decode_of_no_init hr hi, h]; rfl
    rw [Stimulus.cw, hr, hi, hpop, hpush]
    rfl
  · intro h
    rw [← ofCw_cw st, h, decode_ofCw]
    rfl

/-! ### A cycle that accepts no push and no pop (R57, R59) -/

section
variable {i : Instr} (hpush : pushAccepted i = false) (hpop : popAccepted i = false)
include hpop

theorem returned_of_no_pop (s : State.Of c) : returned i s = none := by
  simp [returned, hpop]

include hpush

/-- The six command-dependent outputs are 0. -/
theorem outputs_of_no_access (s : State.Of c) :
    outputs i s = shown s false false false false false false := by
  simp [outputs, shown, wrWrapOut, rdWrapOut, headCarryOut, tailCarryOut, pushViolOut, popViolOut,
    hpush, hpop]

end

/-- No output is a function of the environment's record (R18). -/
@[simp] theorem outputs_capture (i j : Instr) (s : State.Of c) :
    outputs j (s.capture i) = outputs j s := rfl

/-! ### The state change of RESET and INIT, and the outputs after it (R19, R65, R66) -/

/-- RESET and INIT record the same outputs and no returned element, so their next states are equal. -/
theorem execInit_eq_execReset (s : State.Of c) : execInit s = execReset s := by
  have hcapture : s.capture .init = s.capture .reset := by
    simp only [State.Of.capture, outputs_of_no_access (i := .init) rfl rfl,
      outputs_of_no_access (i := .reset) rfl rfl, returned_of_no_pop (i := .init) rfl,
      returned_of_no_pop (i := .reset) rfl]
  rw [execInit, execReset, hcapture]

@[simp] theorem idx_zero : idx (0 : Counter c) = 0 :=
  BitVec.eq_of_toNat_eq (by simp)

@[simp] theorem wrIdxOut_zeroCounters (s : State.Of c) : wrIdxOut s.zeroCounters = 0 := idx_zero

@[simp] theorem rdIdxOut_zeroCounters (s : State.Of c) : rdIdxOut s.zeroCounters = 0 := idx_zero

@[simp] theorem emptyOut_zeroCounters (s : State.Of c) : emptyOut s.zeroCounters = true := by
  simp [emptyOut]

theorem occupancy_zeroCounters (s : State.Of c) : (occupancy s.zeroCounters).toNat = 0 :=
  (emptyOut_iff _).mp (emptyOut_zeroCounters s)

@[simp] theorem lengthOut_zeroCounters (s : State.Of c) : lengthOut s.zeroCounters = 0 :=
  BitVec.eq_of_toNat_eq (by rw [lengthOut_toNat, occupancy_zeroCounters]; rfl)

/-- A usable depth of 0 is the only one that an empty buffer fills (R7). -/
theorem fullOut_zeroCounters_iff (s : State.Of c) : fullOut s.zeroCounters = true ↔ c.C = 1 := by
  have hC := C_pos c
  rw [fullOut_iff, occupancy_zeroCounters]
  omega

@[simp] theorem fullOut_zeroCounters (s : State.Of c) :
    fullOut s.zeroCounters = decide (c.C = 1) := by
  rw [Bool.eq_iff_iff, decide_eq_true_iff, fullOut_zeroCounters_iff]

@[simp] theorem rdataOut_zeroCounters (s : State.Of c) :
    rdataOut s.zeroCounters = Store.read s.store 0 := by
  simp [rdataOut, readCell]

/-! ### The three commands -/

/-- Settles O6: the next state is the captured one with zeroed counters, whose outputs are known. -/
theorem resetZeroesTheCountersAndKeepsTheStore :
    Obligations.ResetZeroesTheCountersAndKeepsTheStore := by
  refine ⟨fun _ => decode_eq_reset_iff, fun s =>
    ⟨(s.capture .reset).zeroCounters, rfl, rfl, rfl, fun _ => rfl, ?seen, ?ret, rfl, rfl, ?after⟩⟩
  case seen => exact outputs_of_no_access rfl rfl s
  case ret => exact returned_of_no_pop (i := .reset) rfl s
  case after =>
    exact ⟨lengthOut_zeroCounters _, emptyOut_zeroCounters _, fullOut_zeroCounters _,
      wrIdxOut_zeroCounters _, rdIdxOut_zeroCounters _, rfl, rfl⟩

/-- Settles O7: RESET answers the next state of INIT, because the two record the same cycle. -/
theorem initHasTheStateChangeOfReset : Obligations.InitHasTheStateChangeOfReset := by
  refine ⟨fun _ => decode_eq_init_iff, fun s =>
    ⟨(s.capture .init).zeroCounters, rfl, ?sameAsReset, rfl, rfl, fun _ => rfl, ?seen, ?ret, rfl, rfl,
      ?after⟩⟩
  case sameAsReset => exact (execInit_eq_execReset s).symm
  case seen => exact outputs_of_no_access rfl rfl s
  case ret => exact returned_of_no_pop (i := .init) rfl s
  case after =>
    exact ⟨emptyOut_zeroCounters _, fullOut_zeroCounters_iff _, rdataOut_zeroCounters _⟩

/-- Settles O8: NOP only writes the environment's record, which no output reads. -/
theorem nopChangesNothingAndKeepsEveryOutput :
    Obligations.NopChangesNothingAndKeepsEveryOutput := by
  refine ⟨fun _ => decode_eq_nop_iff, fun s =>
    ⟨s.capture .nop, rfl, ⟨rfl, rfl, fun _ => rfl, rfl, rfl⟩, ?seen, ?ret, ?nextOutputs⟩⟩
  case seen => exact outputs_of_no_access rfl rfl s
  case ret => exact returned_of_no_pop (i := .nop) rfl s
  case nextOutputs => exact outputs_capture .nop .nop s

end Sys2Proof.Machine
end

section
/-! PROOFS. The obligations on the data movement commands PUSH, POP and PUSHPOP (spec/41_push_pop.md R70,
R71, R72, R78): which stimuli decode to them, the command-dependent outputs as facts about the counters,
the status outputs after each half, and runs of pushes and of pops as moves of the presented queue. -/

namespace Sys2Proof.Machine

variable {c : Config}

/-! ### The stimuli of PUSH, POP and PUSHPOP (R52) -/

theorem decode_of_cw {st : Stimulus c} {cw : BitVec 4} (h : st.cw = cw) :
    decode st = commandOf cw st.wdata.toNat := by
  rw [← h, ← decode_ofCw, ofCw_cw]

/-- The word of a command that does not initialise has the requests the command accepts. -/
theorem cw_of_decode {st : Stimulus c} {i : Instr} {pop push : Bool} (h : decode st = i)
    (hquiet : initialises i = false) (hpop : popAccepted i = pop) (hpush : pushAccepted i = push) :
    st.cw = BitVec.ofBool false ++ BitVec.ofBool false ++ BitVec.ofBool pop ++ BitVec.ofBool push := by
  subst h hpop hpush
  obtain ⟨hr, hi⟩ : st.rst = false ∧ st.init = false := by
    simpa [hquiet] using initialises_decode_iff st
  rw [popAccepted_decode_of_no_init hr hi, pushAccepted_decode_of_no_init hr hi, Stimulus.cw, hr, hi]

theorem decode_eq_push_iff (st : Stimulus c) (v : Nat) :
    decode st = .push v ↔ st.cw = 0b0001#4 ∧ v = st.wdata.toNat := by
  constructor
  · intro h
    have hcw : st.cw = 0b0001#4 := cw_of_decode (pop := false) (push := true) h rfl rfl rfl
    exact ⟨hcw, Instr.push.inj (h.symm.trans (decode_of_cw hcw))⟩
  · rintro ⟨hcw, rfl⟩
    exact decode_of_cw hcw

theorem decode_eq_pop_iff (st : Stimulus c) : decode st = .pop ↔ st.cw = 0b0010#4 :=
  ⟨fun h => cw_of_decode (pop := true) (push := false) h rfl rfl rfl, decode_of_cw⟩

theorem decode_eq_pushpop_iff (st : Stimulus c) (v : Nat) :
    decode st = .pushpop v ↔ st.cw = 0b0011#4 ∧ v = st.wdata.toNat := by
  constructor
  · intro h
    have hcw : st.cw = 0b0011#4 := cw_of_decode (pop := true) (push := true) h rfl rfl rfl
    exact ⟨hcw, Instr.pushpop.inj (h.symm.trans (decode_of_cw hcw))⟩
  · rintro ⟨hcw, rfl⟩
    exact decode_of_cw hcw

/-! ### The outputs of a cycle (R81 to R91) -/

theorem idx_beq_lastIndex (v : Counter c) :
    (idx v == BitVec.ofNat c.b c.MASK) = decide (v.toNat % c.C = c.C - 1) := by
  rw [Bool.eq_iff_iff, beq_iff_eq, decide_eq_true_iff, ← BitVec.toNat_inj, idx_toNat, lastIndex_toNat]

theorem counter_beq_allOnes (v : Counter c) :
    (v == BitVec.allOnes c.W) = decide (v.toNat = 2 ^ c.W - 1) := by
  rw [Bool.eq_iff_iff, beq_iff_eq, decide_eq_true_iff, ← BitVec.toNat_inj, BitVec.toNat_allOnes]

/-- The six command-dependent outputs: each is 0 unless its half is accepted. -/
theorem outputs_eq_shown (i : Instr) (s : State.Of c) :
    outputs i s = shown s
      (pushAccepted i && decide (s.head.toNat % c.C = c.C - 1))
      (popAccepted i && decide (s.tail.toNat % c.C = c.C - 1))
      (pushAccepted i && decide (s.head.toNat = 2 ^ c.W - 1))
      (popAccepted i && decide (s.tail.toNat = 2 ^ c.W - 1))
      (pushAccepted i && fullOut s) (popAccepted i && emptyOut s) := by
  simp only [outputs, shown, wrWrapOut, rdWrapOut, headCarryOut, tailCarryOut, pushViolOut, popViolOut,
    idx_beq_lastIndex, counter_beq_allOnes]

theorem rdataOut_eq_read (s : State.Of c) : rdataOut s = Store.read s.store (s.tail.toNat % c.C) :=
  congrArg (Store.read s.store) (idx_toNat s.tail)

theorem writeCell_eq_mod (s : State.Of c) : writeCell s = s.head.toNat % c.C := idx_toNat s.head

/-- R82 in terms of the output `length`. -/
theorem fullOut_iff_lengthOut (s : State.Of c) :
    fullOut s = true ↔ (lengthOut s).toNat = c.C - 1 := by
  rw [fullOut_iff, lengthOut_toNat]

/-- R81 in terms of the output `length`. -/
theorem emptyOut_iff_lengthOut (s : State.Of c) : emptyOut s = true ↔ (lengthOut s).toNat = 0 := by
  rw [emptyOut_iff, lengthOut_toNat]

/-! ### The status outputs after a push (R70) -/

section
variable {s t : State.Of c} (hhead : t.head = succ s.head) (htail : t.tail = s.tail)
include hhead htail

theorem lengthOut_of_push :
    (lengthOut t).toNat = if fullOut s then 0 else (lengthOut s).toNat + 1 := by
  have hC := C_pos c
  have hfull : (occupancy s).toNat + 1 = c.C ↔ fullOut s = true := by
    rw [fullOut_iff]
    omega
  simp only [lengthOut_toNat, occupancy_push hhead htail, hfull]

theorem lengthOut_of_push_mod : (lengthOut t).toNat = ((lengthOut s).toNat + 1) % c.C := by
  rw [lengthOut_toNat, lengthOut_toNat, occupancy_push hhead htail]
  split
  next hlast => rw [hlast, Nat.mod_self]
  next hroom => exact (Nat.mod_eq_of_lt (Nat.lt_of_le_of_ne (occupancy_lt s) hroom)).symm

/-- A push leaves the buffer empty exactly when it overruns a full one. -/
theorem emptyOut_of_push : emptyOut t = fullOut s := by
  rw [Bool.eq_iff_iff, emptyOut_iff, ← lengthOut_toNat, lengthOut_of_push hhead htail]
  cases fullOut s <;> simp

end

theorem readCell_eq_writeCell_iff (s : State.Of c) : readCell s = writeCell s ↔ emptyOut s = true := by
  rw [readCell, writeCell, BitVec.toNat_inj, emptyOut, beq_iff_eq, eq_comm]

/-- The element pushed into an empty buffer is the one a pop reads next. -/
theorem rdataOut_pushHalf (s : State.Of c) (v : Elem c) :
    rdataOut (s.pushHalf v) = if emptyOut s then v else rdataOut s := by
  have hread : rdataOut (s.pushHalf v) = if readCell s = writeCell s then v else rdataOut s :=
    Store.read_write ..
  simp only [hread, readCell_eq_writeCell_iff]

/-! ### The status outputs after a pop (R71) -/

section
variable {s t : State.Of c} (hhead : t.head = s.head) (htail : t.tail = succ s.tail)
include hhead htail

theorem lengthOut_of_pop :
    (lengthOut t).toNat = if emptyOut s then c.C - 1 else (lengthOut s).toNat - 1 := by
  simp only [lengthOut_toNat, occupancy_pop hhead htail, emptyOut_iff]

theorem lengthOut_of_pop_mod :
    ((lengthOut t).toNat : Int) = ((lengthOut s).toNat - 1 : Int) % c.C := by
  have hC := C_pos c
  have hlt := occupancy_lt s
  rw [lengthOut_toNat, lengthOut_toNat, occupancy_pop hhead htail]
  split
  next hnone =>
    rw [hnone, ← Int.add_emod_right, Int.emod_eq_of_lt (by omega) (by omega)]
    omega
  next hsome =>
    rw [Int.emod_eq_of_lt (by omega) (by omega)]
    omega

/-- A pop leaves the buffer full exactly when it underruns an empty one. -/
theorem fullOut_of_pop : fullOut t = emptyOut s := by
  have hlt := occupancy_lt s
  rw [Bool.eq_iff_iff, fullOut_iff, emptyOut_iff, occupancy_pop hhead htail]
  split <;> omega

end

theorem rdataOut_popHalf (s : State.Of c) :
    rdataOut s.popHalf = Store.read s.store ((s.tail.toNat + 1) % c.C) := by
  rw [rdataOut_eq_read, popHalf_tail, succ_toNat, mod_mod_C, popHalf_store]

/-! ### The status outputs after a push and a pop together (R72) -/

/-- `length`, `empty` and `full` are functions of the occupancy. -/
theorem status_congr {s t : State.Of c} (h : (occupancy t).toNat = (occupancy s).toNat) :
    lengthOut t = lengthOut s ∧ emptyOut t = emptyOut s ∧ fullOut t = fullOut s := by
  refine ⟨?length, ?empty, ?full⟩
  case length => rw [← BitVec.toNat_inj, lengthOut_toNat, lengthOut_toNat, h]
  case empty => rw [Bool.eq_iff_iff, emptyOut_iff, emptyOut_iff, h]
  case full => rw [Bool.eq_iff_iff, fullOut_iff, fullOut_iff, h]

/-! ### The three commands -/

/-- Settles O9: the next state is the captured one after the push half. -/
theorem pushWritesTheCellAtHeadAndAdvancesHead :
    Obligations.PushWritesTheCellAtHeadAndAdvancesHead := by
  refine ⟨fun _ => decode_eq_push_iff, fun v s =>
    ⟨(s.capture (.push v)).pushHalf (wdataOf _ v), rfl, succ_toNat s.head, rfl, writeCell_eq_mod s,
      ?written, ?frame, rfl, rfl, returned_of_no_pop (i := .push v) rfl s, outputs_eq_shown (.push v) s,
      ?after⟩⟩
  case written => exact (Store.read_write ..).trans (if_pos rfl)
  case frame => exact fun n hn => (Store.read_write ..).trans (if_neg hn)
  case after =>
    exact ⟨lengthOut_of_push_mod rfl rfl, lengthOut_of_push rfl rfl, emptyOut_of_push rfl rfl,
      fullOut_iff_lengthOut _, rdataOut_pushHalf (s.capture (.push v)) (wdataOf _ v)⟩

/-- Settles O10: the next state is the captured one after the pop half. -/
theorem popReturnsTheCellAtTailAndAdvancesTail :
    Obligations.PopReturnsTheCellAtTailAndAdvancesTail := by
  refine ⟨fun _ => decode_eq_pop_iff, fun s =>
    ⟨(s.capture .pop).popHalf, rfl, congrArg some (rdataOut_eq_read s), succ_toNat s.tail, rfl,
      fun _ => rfl, rfl, rfl, outputs_eq_shown .pop s, ?after⟩⟩
  case after =>
    exact ⟨lengthOut_of_pop_mod rfl rfl, lengthOut_of_pop rfl rfl, fullOut_of_pop rfl rfl,
      emptyOut_iff_lengthOut _, rdataOut_popHalf (s.capture .pop)⟩

/-- Settles O11: the record and the returned element are of the state before both halves, and the two
increments cancel in the occupancy. -/
theorem pushpopDoesBothHalvesOnTheStateBefore :
    Obligations.PushpopDoesBothHalvesOnTheStateBefore := by
  refine ⟨fun _ => decode_eq_pushpop_iff, fun v s =>
    ⟨((s.capture (.pushpop v)).pushHalf (wdataOf _ v)).popHalf, rfl, congrArg some (rdataOut_eq_read s),
      succ_toNat s.head, succ_toNat s.tail, writeCell_eq_mod s, ?written, ?frame, rfl, rfl,
      outputs_eq_shown (.pushpop v) s, ?after⟩⟩
  case written => exact (Store.read_write ..).trans (if_pos rfl)
  case frame => exact fun n hn => (Store.read_write ..).trans (if_neg hn)
  case after => exact status_congr (occupancy_pushpop rfl rfl)

/-! ### Runs of pushes and runs of pops (R78) -/

theorem length_queue (s : State.Of c) : (queue s).length = (occupancy s).toNat := by
  simp [queue]

theorem length_commands (k : Nat) (s : State.Of c) : (commands k s).length = k := by
  induction k generalizing s with
  | zero => rfl
  | succ k ih => rw [commands_succ, List.length_cons, ih]

theorem length_pushedIn (k : Nat) (s : State.Of c) : (pushedIn k s).length = pushCount k s := by
  rw [pushedIn, List.length_map, List.length_filterMap_eq_countP]
  rfl

theorem length_pushedIn_of_all_push {k : Nat} {s : State.Of c}
    (h : ∀ i ∈ commands k s, pushAccepted i = true) : (pushedIn k s).length = k := by
  rw [length_pushedIn, pushCount, List.countP_eq_length.mpr h, length_commands]

theorem queue_cycle_of_push {s : State.Of c} (hpush : pushAccepted (presentCommand s) = true)
    (hpop : popAccepted (presentCommand s) = false) (hfull : fullOut s = false) :
    queue (cycle s) = queue s ++ (pushedBy c (presentCommand s)).toList := by
  have hquiet : initialises (presentCommand s) = false := by
    by_contra h
    simp [pushAccepted, initialises_accepts (eq_true_of_ne_false h)] at hpush
  have hhonest : Honest (presentCommand s) s := ⟨fun _ => hfull, by simp [hpop]⟩
  rw [cycle_moves_queue hquiet hhonest, cycle_ret, returned_of_no_pop hpop]
  rfl

/-- Pushes for which there is room all join the queue, in order. -/
theorem queue_after_pushes {k : Nat} {s : State.Of c}
    (hcommands : ∀ i ∈ commands k s, pushAccepted i = true ∧ popAccepted i = false)
    (hroom : (queue s).length + k < c.C) : queue (after k s) = queue s ++ pushedIn k s := by
  induction k generalizing s with
  | zero => exact (List.append_nil _).symm
  | succ k ih =>
    rw [commands_succ, List.forall_mem_cons] at hcommands
    obtain ⟨⟨hpush, hpop⟩, hlater⟩ := hcommands
    have hfull : fullOut s = false := by
      rw [fullOut_eq_false_iff, ← length_queue]
      omega
    have hcycle := queue_cycle_of_push hpush hpop hfull
    have hone : (pushedBy c (presentCommand s)).toList.length = 1 := by
      rw [Option.length_toList, pushedBy, Option.isSome_map, ← pushAccepted, hpush]
      rfl
    have hroomLater : (queue (cycle s)).length + k < c.C := by
      rw [hcycle, List.length_append, hone]
      omega
    rw [after, ih hlater hroomLater, hcycle, pushedIn_succ, List.append_assoc]

theorem queue_of_pop_cycle {s : State.Of c} (hpop : presentCommand s = .pop)
    (hempty : emptyOut s = false) :
    (cycle s).ret = some (rdataOut s) ∧ queue s = rdataOut s :: queue (cycle s) := by
  have hret : (cycle s).ret = some (rdataOut s) := by rw [cycle_ret, hpop]; rfl
  have hhonest : Honest (presentCommand s) s :=
    ⟨by simp [hpop, pushAccepted, pushOperand], fun _ => hempty⟩
  have hmoves := cycle_moves_queue (by rw [hpop]; rfl) hhonest
  rw [hret, hpop] at hmoves
  exact ⟨hret, (List.append_nil _).symm.trans hmoves⟩

/-- Pops return the first elements of the queue, in order. -/
theorem returnedIn_of_pops {k : Nat} {s : State.Of c} (hcommands : ∀ i ∈ commands k s, i = .pop)
    (hqueued : k ≤ (queue s).length) : returnedIn k s = (queue s).take k := by
  induction k generalizing s with
  | zero => rfl
  | succ k ih =>
    rw [commands_succ, List.forall_mem_cons] at hcommands
    obtain ⟨hpop, hlater⟩ := hcommands
    have hempty : emptyOut s = false := by
      rw [emptyOut_eq_false_iff, ← length_queue]
      omega
    obtain ⟨hret, hqueue⟩ := queue_of_pop_cycle hpop hempty
    rw [hqueue, List.length_cons] at hqueued
    rw [returnedIn, hret, ih hlater (Nat.le_of_succ_le_succ hqueued), hqueue, List.take_succ_cons]
    rfl

/-- Settles O46: after the initialisation and the pushes the queue is the list of the pushed elements,
which counts them and which the pops return. -/
theorem consecutivePushesFromEmptyAreCountedAndReturned :
    Obligations.ConsecutivePushesFromEmptyAreCountedAndReturned := by
  intro c k s hinit hk hpushes
  have hstart : queue (cycle s) = [] := queue_cycle_of_initialises hinit
  have hroom : (queue (cycle s)).length + k < c.C := by
    have hC := C_pos c
    rw [hstart, List.length_nil]
    omega
  have hqueue : queue (after k (cycle s)) = pushedIn k (cycle s) := by
    rw [queue_after_pushes hpushes hroom, hstart, List.nil_append]
  have hlength : (queue (after k (cycle s))).length = k := by
    rw [hqueue, length_pushedIn_of_all_push fun i hi => (hpushes i hi).1]
  have hcount : (lengthOut (after k (cycle s))).toNat = k := by
    rw [lengthOut_toNat, ← length_queue, hlength]
  refine ⟨hcount, ?empty, ?full, fun hpops => ?returned⟩
  case empty => rw [emptyOut_iff_lengthOut, hcount]
  case full => rw [fullOut_iff_lengthOut, hcount]
  case returned => rw [returnedIn_of_pops hpops hlength.ge, List.take_of_length_le hlength.le, hqueue]

end Sys2Proof.Machine
end

section
/-! PROOFS. The obligations on the status outputs (spec/42_status.md R80 to R91, R94): the occupancy as a
difference of integers, each output as a fact about the counters, what an output read and a cycle of NOP
leave unchanged, and the counters after a cycle that flags a wrap, a carry or a violation. -/

namespace Sys2Proof.Machine

variable {c : Config}

/-! ### The output `length` (R80) -/

theorem occupancy_eq_counter_difference (s : State.Of c) :
    ((occupancy s).toNat : Int) = ((s.head.toNat : Int) - s.tail.toNat) % c.C := by
  have htail := s.tail.isLt
  have hround : ((2 ^ c.W - s.tail.toNat + s.head.toNat : Nat) : Int)
      = ((s.head.toNat : Int) - s.tail.toNat) + (2 ^ c.W : Nat) := by
    omega
  obtain ⟨q, hq⟩ := C_dvd c
  rw [occupancy, masked_toNat, BitVec.toNat_sub, mod_mod_C, Int.natCast_mod, hround, hq, Int.natCast_mul,
    Int.add_mul_emod_self_left]

theorem occupancy_eq_index_difference (s : State.Of c) :
    ((occupancy s).toNat : Int) = (((idx s.head).toNat : Int) - (idx s.tail).toNat) % c.C := by
  rw [occupancy_eq_counter_difference, idx_toNat, idx_toNat, Int.natCast_mod, Int.natCast_mod,
    ← Int.sub_emod]

/-- R80 as the spec writes it. -/
theorem lengthOut_eq_masked_difference (s : State.Of c) :
    (lengthOut s).toNat = (s.head.toNat + 2 ^ c.W - s.tail.toNat) % 2 ^ c.W &&& c.MASK := by
  have hswap : s.head.toNat + 2 ^ c.W - s.tail.toNat = 2 ^ c.W - s.tail.toNat + s.head.toNat := by
    have := s.tail.isLt
    omega
  rw [lengthOut_toNat, occupancy, masked_toNat, BitVec.toNat_sub, and_MASK, hswap]

theorem lengthOut_le (s : State.Of c) : (lengthOut s).toNat ≤ c.C - 1 := by
  rw [lengthOut_toNat]
  exact Nat.le_sub_one_of_lt (occupancy_lt s)

theorem lengthOut_top_bit (s : State.Of c) : (lengthOut s).getLsbD c.b = false := by
  rw [lengthOut, BitVec.getLsbD_setWidth, BitVec.getLsbD_of_ge _ _ le_rfl, Bool.and_false]

/-- A buffer of one cell has no usable depth (R7). -/
theorem occupancy_of_C_eq_one (hC : c.C = 1) (s : State.Of c) : (occupancy s).toNat = 0 := by
  have := occupancy_lt s
  omega

/-- Settles O12, from the occupancy as a masked, an integer and an index difference. -/
theorem lengthIsTheMaskedCounterDifference : Obligations.LengthIsTheMaskedCounterDifference := by
  refine ⟨fun s => ⟨_, rfl, rfl, lengthOut_eq_masked_difference s, ?counters, ?indices, lengthOut_le s,
    lengthOut_top_bit s⟩, fun c s hC => ?one⟩
  case counters => exact (congrArg _ (lengthOut_toNat s)).trans (occupancy_eq_counter_difference s)
  case indices => exact (congrArg _ (lengthOut_toNat s)).trans (occupancy_eq_index_difference s)
  case one => rw [lengthOut_toNat, occupancy_of_C_eq_one hC]

/-! ### The outputs `empty` and `full` (R81, R82) -/

theorem emptyOut_iff_mod (s : State.Of c) :
    emptyOut s = true ↔ s.head.toNat % c.C = s.tail.toNat % c.C := by
  rw [emptyOut, beq_iff_eq, idx_eq_iff]

theorem emptyOut_of_zero {s : State.Of c} (hhead : s.head = 0) (htail : s.tail = 0) :
    emptyOut s = true := by
  rw [emptyOut_iff_mod, hhead, htail]

theorem emptyOut_of_C_eq_one (hC : c.C = 1) (s : State.Of c) : emptyOut s = true :=
  (emptyOut_iff s).mpr (occupancy_of_C_eq_one hC s)

/-- The buffer is full exactly when one more push would make it look empty. -/
theorem fullOut_iff_idx_succ (s : State.Of c) : fullOut s = true ↔ idx (succ s.head) = idx s.tail := by
  rw [← emptyOut_of_push (s := s) (t := s.setHead (succ s.head)) rfl rfl, emptyOut, beq_iff_eq]
  rfl

theorem full_and_empty_iff (s : State.Of c) : fullOut s = true ∧ emptyOut s = true ↔ c.C = 1 := by
  have hC := C_pos c
  have hlt := occupancy_lt s
  rw [fullOut_iff, emptyOut_iff]
  omega

theorem fullOut_of_C_eq_one (hC : c.C = 1) (s : State.Of c) : fullOut s = true :=
  ((full_and_empty_iff s).mpr hC).1

/-- Settles O13: `empty` compares the indices, which are equal at an occupancy of 0. -/
theorem emptyComparesTheMaskedIndices : Obligations.EmptyComparesTheMaskedIndices :=
  ⟨fun s => ⟨_, rfl, rfl, emptyOut_iff_mod s, emptyOut_iff_lengthOut s, emptyOut_of_zero⟩,
    fun _ s hC => emptyOut_of_C_eq_one hC s⟩

/-- Settles O14: an occupancy of `C - 1` is one push away from equal indices, and is 0 only if `C = 1`. -/
theorem fullReportsAnOccupancyOneShortOfTheCapacity :
    Obligations.FullReportsAnOccupancyOneShortOfTheCapacity := by
  refine ⟨fun s => ⟨_, rfl, rfl, fullOut_iff s, fullOut_iff_idx_succ s, fun hhead htail => ?zero,
    full_and_empty_iff s⟩, fun c s => ⟨fun hC => fullOut_of_C_eq_one hC s, fun hC => ?two⟩⟩
  case zero =>
    exact (and_iff_left (emptyOut_of_zero hhead htail)).symm.trans (full_and_empty_iff s)
  case two => rw [fullOut_iff_lengthOut, hC]

/-! ### The outputs `rdata`, `wr_idx` and `rd_idx` (R83, R84, R85) -/

/-- Settles O15: `rdata` reads the cell of the read index, which is the write index of an empty buffer
and the first cell of the presented queue otherwise. -/
theorem rdataShowsTheCellAtTail : Obligations.RdataShowsTheCellAtTail := by
  refine ⟨fun s => ⟨_, rfl, rfl, rdataOut_eq_read s, fun hempty => ?stale⟩, fun c s hempty => ?oldest⟩
  case stale => exact congrArg (Store.read s.store) ((readCell_eq_writeCell_iff s).mpr hempty)
  case oldest => rw [queue_eq_rdata_cons hempty, List.head?_cons]

/-- Settles O16, from the laws of the masked index and of a read after a write. -/
theorem indexOutputsAreTheMaskedCounters : Obligations.IndexOutputsAreTheMaskedCounters := by
  refine fun s => ⟨⟨_, rfl, rfl, idx_toNat_eq_and_MASK s.head, idx_eq_extractLsb' s.head,
    idx_le_MASK s.head, ?writeStart, rfl, fun v => ⟨_, rfl, ?written, fun n hn => ?frame⟩⟩,
    _, rfl, rfl, idx_toNat_eq_and_MASK s.tail, idx_eq_extractLsb' s.tail, idx_le_MASK s.tail,
    ?readStart, rfl, _, rfl, rfl⟩
  case writeStart => exact fun hhead => (congrArg idx hhead).trans idx_zero
  case written => exact (Store.read_write ..).trans (if_pos rfl)
  case frame => exact (Store.read_write ..).trans (if_neg hn)
  case readStart => exact fun htail => (congrArg idx htail).trans idx_zero

/-! ### The six command-dependent outputs as facts about the cycle (R86 to R91) -/

theorem wrWrapOut_iff (i : Instr) (s : State.Of c) :
    wrWrapOut i s = true ↔ pushAccepted i = true ∧ s.head.toNat % c.C = c.C - 1 := by
  rw [wrWrapOut, idx_beq_lastIndex, Bool.and_eq_true, decide_eq_true_iff]

theorem rdWrapOut_iff (i : Instr) (s : State.Of c) :
    rdWrapOut i s = true ↔ popAccepted i = true ∧ s.tail.toNat % c.C = c.C - 1 := by
  rw [rdWrapOut, idx_beq_lastIndex, Bool.and_eq_true, decide_eq_true_iff]

theorem headCarryOut_iff (i : Instr) (s : State.Of c) :
    headCarryOut i s = true ↔ pushAccepted i = true ∧ s.head.toNat = 2 ^ c.W - 1 := by
  rw [headCarryOut, counter_beq_allOnes, Bool.and_eq_true, decide_eq_true_iff]

theorem tailCarryOut_iff (i : Instr) (s : State.Of c) :
    tailCarryOut i s = true ↔ popAccepted i = true ∧ s.tail.toNat = 2 ^ c.W - 1 := by
  rw [tailCarryOut, counter_beq_allOnes, Bool.and_eq_true, decide_eq_true_iff]

theorem pushViolOut_iff (i : Instr) (s : State.Of c) :
    pushViolOut i s = true ↔ pushAccepted i = true ∧ fullOut s = true :=
  Bool.and_eq_true_iff

theorem popViolOut_iff (i : Instr) (s : State.Of c) :
    popViolOut i s = true ↔ popAccepted i = true ∧ emptyOut s = true :=
  Bool.and_eq_true_iff

/-- R52 at the ports of the present cycle. -/
theorem pushAccepted_present_iff (s : State.Of c) : pushAccepted (presentCommand s) = true ↔
    s.present.push = true ∧ s.present.rst = false ∧ s.present.init = false :=
  (accepted_decode_iff s.present).1

theorem popAccepted_present_iff (s : State.Of c) : popAccepted (presentCommand s) = true ↔
    s.present.pop = true ∧ s.present.rst = false ∧ s.present.init = false :=
  (accepted_decode_iff s.present).2

theorem initialises_of_access {i : Instr} (h : pushAccepted i = true ∨ popAccepted i = true) :
    initialises i = false := by
  by_contra hinit
  obtain ⟨hpush, hpop⟩ := initialises_accepts (eq_true_of_ne_false hinit)
  simp [pushAccepted, hpush, hpop] at h

theorem cycle_head_of_push {s : State.Of c} (h : pushAccepted (presentCommand s) = true) :
    (cycle s).head = succ s.head := by
  simp [cycle_head, initialises_of_access (.inl h), h]

theorem cycle_tail_of_pop {s : State.Of c} (h : popAccepted (presentCommand s) = true) :
    (cycle s).tail = succ s.tail := by
  simp [cycle_tail, initialises_of_access (.inr h), h]

/-! ### The index wraps (R86, R87) -/

theorem idx_succ_of_last {v : Counter c} (h : v.toNat % c.C = c.C - 1) : (idx (succ v)).toNat = 0 := by
  rw [idx_succ, idx_toNat, h, Nat.sub_add_cancel (C_pos c), Nat.mod_self]

theorem last_mod_C (c : Config) : (c.C - 1) % c.C = c.C - 1 :=
  Nat.mod_eq_of_lt (Nat.sub_lt (C_pos c) Nat.one_pos)

/-- With one cell, every access goes from the last index to index 0. -/
theorem mod_C_of_C_eq_one (hC : c.C = 1) (n : Nat) : n % c.C = c.C - 1 := by
  rw [hC, Nat.mod_one]

/-- Settles O17: the wrap is the access at index `C - 1`, whose increment is index 0. -/
theorem wrapOutputsFlagTheIndexWrap : Obligations.WrapOutputsFlagTheIndexWrap := by
  refine ⟨fun s => ⟨⟨_, rfl, rfl, ?write⟩, _, rfl, rfl, ?read⟩,
    fun c s => ⟨fun hwrap => ?writeIndex, fun hwrap => ?readIndex, fun hC => ⟨?writeOne, ?readOne⟩⟩⟩
  case write => exact (wrWrapOut_iff _ s).trans (and_congr_left' (pushAccepted_present_iff s))
  case read => exact (rdWrapOut_iff _ s).trans (and_congr_left' (popAccepted_present_iff s))
  case writeIndex =>
    obtain ⟨hpush, hlast⟩ := (wrWrapOut_iff _ s).mp hwrap
    rw [wrIdxOut, cycle_head_of_push hpush, idx_succ_of_last hlast]
  case readIndex =>
    obtain ⟨hpop, hlast⟩ := (rdWrapOut_iff _ s).mp hwrap
    rw [rdIdxOut, cycle_tail_of_pop hpop, idx_succ_of_last hlast]
  case writeOne =>
    rw [Bool.eq_iff_iff, wrWrapOut_iff]
    exact and_iff_left (mod_C_of_C_eq_one hC _)
  case readOne =>
    rw [Bool.eq_iff_iff, rdWrapOut_iff]
    exact and_iff_left (mod_C_of_C_eq_one hC _)

/-! ### The counter carries (R88, R89) -/

theorem succ_of_carry {v : Counter c} (h : v.toNat = 2 ^ c.W - 1) : succ v = 0 := by
  rw [← BitVec.toNat_inj, succ_toNat, h, Nat.sub_add_cancel (Nat.two_pow_pos _), Nat.mod_self]
  rfl

/-- All low bits of a counter that carries are ones. -/
theorem mod_C_of_carry {n : Nat} (h : n = 2 ^ c.W - 1) : n % c.C = c.C - 1 := by
  obtain ⟨q, hq⟩ := C_dvd c
  have hpos : 0 < c.C * q := hq ▸ Nat.two_pow_pos _
  rw [h, hq]
  exact (Nat.mul_sub_mod hpos).trans (by rw [Nat.zero_mod])

/-- A state with both counters at the last index of their first round and a PUSHPOP on the ports: its cycle
wraps both indices and carries from neither counter. -/
def lastIndexState (c : Config) : State.Of c :=
  { State.Of.reset c with
    head := BitVec.ofNat c.W (c.C - 1)
    tail := BitVec.ofNat c.W (c.C - 1)
    inputs := [Stimulus.ofCw 0b0011#4 0] }

theorem lastIndex_counter_toNat (c : Config) : (BitVec.ofNat c.W (c.C - 1)).toNat = c.C - 1 := by
  have := C_lt c
  rw [BitVec.toNat_ofNat, Nat.mod_eq_of_lt (by omega)]

theorem presentCommand_lastIndexState (c : Config) :
    presentCommand (lastIndexState c) = .pushpop 0 :=
  (decode_ofCw 0b0011#4 0).trans (congrArg Instr.pushpop BitVec.toNat_zero)

theorem lastIndexState_wraps_without_carry (c : Config) :
    wrWrapOut (.pushpop 0) (lastIndexState c) = true ∧
      headCarryOut (.pushpop 0) (lastIndexState c) = false ∧
      rdWrapOut (.pushpop 0) (lastIndexState c) = true ∧
      tailCarryOut (.pushpop 0) (lastIndexState c) = false := by
  have hC := C_pos c
  have hrange := C_lt c
  have hhead : (lastIndexState c).head.toNat = c.C - 1 := lastIndex_counter_toNat c
  have htail : (lastIndexState c).tail.toNat = c.C - 1 := lastIndex_counter_toNat c
  have hnoCarry : ¬ c.C - 1 = 2 ^ c.W - 1 := by omega
  simp only [← Bool.not_eq_true, wrWrapOut_iff, headCarryOut_iff, rdWrapOut_iff, tailCarryOut_iff,
    hhead, htail, last_mod_C, hnoCarry, and_false, not_false_iff, and_true, true_and]
  exact ⟨rfl, rfl⟩

/-- One counter value in each of the `2^(W-b)` rounds has the last index. -/
theorem countP_last_index (c : Config) :
    (List.range (2 ^ c.W)).countP (fun n => n % c.C == c.C - 1) = 2 ^ (c.W - c.b) := by
  have hrounds : 2 ^ c.W % c.C = 0 := Nat.mod_eq_zero_of_dvd (C_dvd c)
  calc (List.range (2 ^ c.W)).countP (fun n => n % c.C == c.C - 1)
      = Nat.count (· ≡ c.C - 1 [MOD c.C]) (2 ^ c.W) := by
        refine List.countP_congr fun n _ => ?_
        simp only [beq_iff_eq, decide_eq_true_iff, Nat.ModEq, last_mod_C]
    _ = 2 ^ c.W / c.C := by
        rw [Nat.count_modEq_card _ (C_pos c), hrounds, if_neg (Nat.not_lt_zero _), Nat.add_zero]
    _ = 2 ^ (c.W - c.b) := Nat.pow_div (Nat.le_of_lt c.W_wide) Nat.two_pos

/-- Settles O18: the carry is the access at the counter's maximum, whose index is `C - 1` and whose
increment is 0; of the counters with that index, one per round, only the last carries. -/
theorem carryOutputsFlagTheCounterWrap : Obligations.CarryOutputsFlagTheCounterWrap := by
  refine ⟨fun s => ⟨⟨_, rfl, rfl, ?head⟩, _, rfl, rfl, ?tail⟩,
    fun c s => ⟨fun hcarry => ?headWraps, fun hcarry => ?tailWraps⟩,
    fun c => ⟨⟨lastIndexState c, ?noCarry⟩, countP_last_index c⟩⟩
  case head => exact (headCarryOut_iff _ s).trans (and_congr_left' (pushAccepted_present_iff s))
  case tail => exact (tailCarryOut_iff _ s).trans (and_congr_left' (popAccepted_present_iff s))
  case headWraps =>
    obtain ⟨hpush, hmax⟩ := (headCarryOut_iff _ s).mp hcarry
    exact ⟨(cycle_head_of_push hpush).trans (succ_of_carry hmax),
      (wrWrapOut_iff _ s).mpr ⟨hpush, mod_C_of_carry hmax⟩⟩
  case tailWraps =>
    obtain ⟨hpop, hmax⟩ := (tailCarryOut_iff _ s).mp hcarry
    exact ⟨(cycle_tail_of_pop hpop).trans (succ_of_carry hmax),
      (rdWrapOut_iff _ s).mpr ⟨hpop, mod_C_of_carry hmax⟩⟩
  case noCarry =>
    rw [presentCommand_lastIndexState]
    exact lastIndexState_wraps_without_carry c

/-! ### The violations (R90, R91) -/

/-- The record of a cycle shows no violation exactly when its command was honest. -/
theorem noViolationSeen_eq_honouring (k : Nat) (s : State.Of c) :
    noViolationSeen k s = honouring k s := by
  induction k generalizing s with
  | zero => rfl
  | succ k ih =>
    rw [noViolationSeen, honouring, ih, cycle_seen, ← Bool.not_and, ← Bool.not_and]
    rfl

theorem read_cycle_of_push {s : State.Of c} (h : pushAccepted (presentCommand s) = true) :
    Store.read (cycle s).store (wrIdxOut s).toNat = s.present.wdata :=
  (onlyAnAcceptedPushWritesAndOnlyItsCell c s _).trans (if_pos ⟨h, rfl⟩)

theorem cycle_ret_of_pop {s : State.Of c} (h : popAccepted (presentCommand s) = true) :
    (cycle s).ret = some (rdataOut s) :=
  (cycle_ret s).trans (if_pos h)

/-- Settles O19: a violation is an accepted access, which is performed as every accepted access is. -/
theorem violationOutputsFlagTheCycleAndSuppressNothing :
    Obligations.ViolationOutputsFlagTheCycleAndSuppressNothing := by
  refine ⟨fun s => ⟨⟨_, rfl, rfl, ?push⟩, _, rfl, rfl, ?pop⟩,
    fun c s => ⟨fun hviol => ?pushed, fun hviol => ?popped, fun hC => ⟨?pushOne, ?popOne⟩,
      fun k => noViolationSeen_eq_honouring k s⟩⟩
  case push => exact (pushViolOut_iff _ s).trans (and_congr_left' (pushAccepted_present_iff s))
  case pop => exact (popViolOut_iff _ s).trans (and_congr_left' (popAccepted_present_iff s))
  case pushed =>
    have hpush := ((pushViolOut_iff _ s).mp hviol).1
    exact ⟨cycle_head_of_push hpush, read_cycle_of_push hpush⟩
  case popped =>
    have hpop := ((popViolOut_iff _ s).mp hviol).1
    exact ⟨cycle_tail_of_pop hpop, cycle_ret_of_pop hpop⟩
  case pushOne => rw [pushViolOut, fullOut_of_C_eq_one hC, Bool.and_true]
  case popOne => rw [popViolOut, emptyOut_of_C_eq_one hC, Bool.and_true]

/-! ### Output reads and cycles of NOP (R94) -/

/-- A read records the port's value, which the record does not change: a second read records it again. -/
theorem execIn_read_idempotent {i : Instr} (hread : i.isCommand = false) {s t : State.Of c}
    (h : execIn i s = .next t) : execIn i t = .next t := by
  cases i
  case reset | init | nop | push | pop | pushpop => cases hread
  all_goals
    cases h
    rfl

theorem sameBlock_setSeen (s : State.Of c) (o : Outputs c) : SameBlock (s.setSeen o) s :=
  ⟨rfl, rfl, fun _ => rfl, rfl, rfl⟩

@[simp] theorem outputs_setSeen (i : Instr) (s : State.Of c) (o : Outputs c) :
    outputs i (s.setSeen o) = outputs i s := rfl

theorem cycle_of_nop {s : State.Of c} (h : presentCommand s = .nop) :
    cycle s = s.advance.capture .nop := by
  rw [cycle, stepIn, h]
  rfl

theorem outputs_after_nops {k : Nat} {s : State.Of c} (h : ∀ i ∈ commands k s, i = .nop) (j : Instr) :
    outputs j (after k s) = outputs j s := by
  induction k generalizing s with
  | zero => rfl
  | succ k ih =>
    rw [commands_succ, List.forall_mem_cons] at h
    obtain ⟨hnop, hlater⟩ := h
    rw [after, ih hlater, cycle_of_nop hnop, outputs_capture, outputs_advance]

/-- Settles O47: a read only replaces the environment's record, and so does a cycle of NOP, and no output
is a function of the record. -/
theorem queriesArePureAndIdempotent : Obligations.QueriesArePureAndIdempotent := by
  refine ⟨fun c i s hread => ?read, fun c k s hnops => outputs_after_nops hnops .nop⟩
  case read =>
    obtain ⟨o, ho⟩ := execIn_read hread s
    exact ⟨_, ho, sameBlock_setSeen s o, rfl, fun j => outputs_setSeen j s o,
      execIn_read_idempotent hread ho⟩

end Sys2Proof.Machine
end

section
/-! PROOFS. The obligation on the block's totality (spec/60_exceptions.md R100): a run of the host's machine
goes on past a step that answers a next state, and every cycle of the block does. -/

namespace Sys2Proof.Machine

theorem run_succ_of_next {M : Host.Core} {s t : M.State} (h : M.step s = .next t) (k : Nat) :
    M.run (k + 1) s = M.run k t := by
  rw [Host.Core.run, h]

variable {c : Config}

theorem stepIn_eq_next_cycle (s : State.Of c) : stepIn s = .next (cycle s) := (stepIn_command s).1

theorem run_eq_next_after (k : Nat) (s : State.Of c) : (coreIn c).run k s = .next (after k s) := by
  induction k generalizing s with
  | zero => rfl
  | succ k ih =>
    calc (coreIn c).run (k + 1) s
      _ = (coreIn c).run k (cycle s) := run_succ_of_next (M := coreIn c) (stepIn_eq_next_cycle s) k
      _ = .next (after (k + 1) s) := ih (cycle s)

/-- Settles O29: the command on the ports, whatever the stimulus, is one of the six, each of which has a
next state; the run follows by induction on its length. -/
theorem everyCycleHasANextState : Obligations.EveryCycleHasANextState := fun _ s =>
  ⟨fun st => ⟨cycle (s.withPresent st), stepIn_eq_next_cycle _⟩, fun k => run_eq_next_after k s⟩

end Sys2Proof.Machine
end

section
/-! PROOFS. The obligations on the encoder and on the command a step runs (spec/30_encoding.md R52 to R54,
R58): the decoder undoes the encoder, and a step is `exec` of the decoded command. -/

namespace Sys2Proof.Machine

variable {c : Config}

/-! ### Encoding and decoding (R53, R56, R58) -/

theorem wellFormed_decode (st : Stimulus c) : (decode st).wellFormed c = true := by
  have hfits : st.wdata.toNat < 2 ^ c.DW := st.wdata.isLt
  rw [decode_of_cw rfl, commandOf]
  split_ifs <;> simp [Instr.wellFormed, hfits]

/-- A value that fits the wires is the number the wires carry. -/
theorem toNat_wdata_of_fits {v : Nat} (h : decide (v < 2 ^ c.DW) = true) :
    (BitVec.ofNat c.DW v).toNat = v := by
  rw [BitVec.toNat_ofNat, Nat.mod_eq_of_lt (of_decide_eq_true h)]

theorem exists_encode_of_wellFormed {i : Instr} (hfits : i.wellFormed c = true)
    (hcommand : i.isCommand = true) :
    ∃ st, encode c i = some st ∧ decode st = i ∧ (pushAccepted i = false → st.wdata = 0) := by
  cases i <;> cases hcommand
  case push v =>
    exact ⟨_, rfl, (decode_ofCw ..).trans (congrArg Instr.push (toNat_wdata_of_fits hfits)), nofun⟩
  case pushpop v =>
    exact ⟨_, rfl, (decode_ofCw ..).trans (congrArg Instr.pushpop (toNat_wdata_of_fits hfits)), nofun⟩
  case reset | init | nop | pop => exact ⟨_, rfl, decode_ofCw .., fun _ => rfl⟩

theorem encode_of_read {i : Instr} (hread : i.isCommand = false) : encode c i = none := by
  cases i
  case reset | init | nop | push | pop | pushpop => cases hread
  all_goals rfl

/-- Settles O26: the decoder answers a well-formed command, and undoes the encoding of one. -/
theorem decodeOfEncodeIsTheCommand : Obligations.DecodeOfEncodeIsTheCommand := by
  refine fun c => ⟨fun i => exists_encode_of_wellFormed, fun st => ?stimulus, fun i => encode_of_read⟩
  case stimulus =>
    obtain ⟨st', hencode, hdecode, -⟩ :=
      exists_encode_of_wellFormed (wellFormed_decode st) (decode_isCommand st)
    exact ⟨wellFormed_decode st, decode_isCommand st, st', hencode, hdecode⟩

/-- Settles O22, by the command of each word and the number its operand stands for. -/
theorem writtenOutWordsDecodeToTheirCommands : Obligations.WrittenOutWordsDecodeToTheirCommands := by
  intro c hDW
  have hwires (v : Nat) (hv : v < 2 ^ 8) : (BitVec.ofNat c.DW v).toNat = v :=
    toNat_wdata_of_fits (by rw [hDW]; exact decide_eq_true hv)
  refine ⟨decode_ofCw .., decode_ofCw .., decode_ofCw .., decode_ofCw .., ?push, decode_ofCw .., ?pushpop⟩
  case push => exact (decode_ofCw ..).trans (congrArg Instr.push (hwires 0x5A (by decide)))
  case pushpop => exact (decode_ofCw ..).trans (congrArg Instr.pushpop (hwires 0xA2 (by decide)))

/-! ### The command a step runs (R39, R54, R125) -/

theorem commandOf_of_no_push {cw : BitVec 4} {v : Nat} (h : pushAccepted (commandOf cw v) = false)
    (w : Nat) : commandOf cw w = commandOf cw v := by
  unfold commandOf at h ⊢
  split_ifs at h ⊢
  · rfl
  · rfl
  · cases h
  · rfl
  · cases h
  · rfl

/-- Settles O24: without a push bit the command of the word has no operand. -/
theorem wdataIsIgnoredWithoutAnAcceptedPush : Obligations.WdataIsIgnoredWithoutAnAcceptedPush := by
  intro c s st w hpush
  rw [decode_of_cw rfl] at hpush
  refine stepIn_withPresent_congr ?command s
  case command =>
    calc decode { st with wdata := w }
        = commandOf st.cw w.toNat := decode_of_cw rfl
      _ = commandOf st.cw st.wdata.toNat := commandOf_of_no_push hpush _
      _ = decode st := (decode_of_cw rfl).symm

theorem present_of_cons {s : State.Of c} {st : Stimulus c} {rest : List (Stimulus c)}
    (h : s.inputs = st :: rest) : s.present = st := by
  rw [State.Of.present, h, List.headD_cons]

theorem present_of_nil {s : State.Of c} (h : s.inputs = []) : s.present = idleStimulus c := by
  rw [State.Of.present, h, List.headD_nil]

theorem advance_of_cons {s : State.Of c} {st : Stimulus c} {rest : List (Stimulus c)}
    (h : s.inputs = st :: rest) : s.advance = s.setInputs rest := by
  rw [State.Of.advance, h, List.tail_cons]

theorem advance_of_nil {s : State.Of c} (h : s.inputs = []) : s.advance = s :=
  State.Of.eq_of_fields rfl rfl rfl rfl (by simp [h]) rfl rfl

/-- Settles O27, by whether a stimulus is left. -/
theorem stepRunsTheDecodedCommand : Obligations.StepRunsTheDecodedCommand := by
  refine fun s => ⟨fun st rest h => ?stimulus, fun h => ?idle⟩
  case stimulus => rw [step, presentCommand, present_of_cons h, advance_of_cons h]
  case idle =>
    rw [step, presentCommand, present_of_nil h, advance_of_nil h]
    rfl

/-- Settles O28: the word's stimulus is the present one, and what stood on the ports is dropped. -/
theorem stepRunsTheFetchedTableWord : Obligations.StepRunsTheFetchedTableWord := by
  intro s nbits w i hi
  obtain rfl : decode (Stimulus.ofTableWord Config.machine nbits w) = i := Option.some.inj hi
  rw [step, State.withFetchWord, withPresent_advance, presentCommand, withPresent_present]

end Sys2Proof.Machine
end

section
/-! PROOFS. The obligations on runs that honour the protocol (spec/10_state.md R13, R20,
spec/70_reset_and_hazards.md R120): the counters of a run as counts of its commands, and the lengths of the
lists that `trace_moves_queue` relates. -/

namespace Sys2Proof.Machine

variable {c : Config}

/-! ### Counts along a run (R13) -/

theorem pushCount_succ (k : Nat) (s : State.Of c) :
    pushCount (k + 1) s = (if pushAccepted (presentCommand s) then 1 else 0) + pushCount k (cycle s) := by
  rw [pushCount, commands_succ, List.countP_cons, Nat.add_comm]
  rfl

theorem popCount_succ (k : Nat) (s : State.Of c) :
    popCount (k + 1) s = (if popAccepted (presentCommand s) then 1 else 0) + popCount k (cycle s) := by
  rw [popCount, commands_succ, List.countP_cons, Nat.add_comm]
  rfl

/-- A command without initialisation adds to each counter the number of its accepted accesses. -/
theorem cycle_counters_of_quiet {s : State.Of c} (hquiet : initialises (presentCommand s) = false) :
    (cycle s).head
        = s.head + BitVec.ofNat c.W (if pushAccepted (presentCommand s) then 1 else 0) ∧
      (cycle s).tail
        = s.tail + BitVec.ofNat c.W (if popAccepted (presentCommand s) then 1 else 0) := by
  rw [cycle_head, cycle_tail, hquiet]
  constructor
  case left => cases pushAccepted (presentCommand s) <;> simp [succ]
  case right => cases popAccepted (presentCommand s) <;> simp [succ]

theorem counters_after_quiet {k : Nat} {s : State.Of c} (hquiet : quiet k s = true) :
    (after k s).head = s.head + BitVec.ofNat c.W (pushCount k s) ∧
      (after k s).tail = s.tail + BitVec.ofNat c.W (popCount k s) := by
  induction k generalizing s with
  | zero => exact ⟨(BitVec.add_zero _).symm, (BitVec.add_zero _).symm⟩
  | succ k ih =>
    obtain ⟨hnow, hlater⟩ := (quiet_succ k s).mp hquiet
    obtain ⟨hhead, htail⟩ := cycle_counters_of_quiet hnow
    obtain ⟨hheadLater, htailLater⟩ := ih hlater
    rw [after, hheadLater, htailLater, hhead, htail, pushCount_succ, popCount_succ, BitVec.ofNat_add,
      BitVec.ofNat_add, BitVec.add_assoc, BitVec.add_assoc]
    exact ⟨rfl, rfl⟩

/-- Settles O32: the counters start at 0 and add one per accepted access. -/
theorem countersCountTheAcceptedPushesAndPops : Obligations.CountersCountTheAcceptedPushesAndPops := by
  intro c k s hinit hquiet
  obtain ⟨hhead, htail, -, -⟩ := cycle_of_initialises hinit
  obtain ⟨hheadLater, htailLater⟩ := counters_after_quiet hquiet
  simp [hheadLater, htailLater, hhead, htail]

/-! ### The queue of an honouring run (R20) -/

theorem length_ret (s : State.Of c) :
    (cycle s).ret.toList.length = if popAccepted (presentCommand s) then 1 else 0 := by
  rw [cycle_ret, returned]
  cases popAccepted (presentCommand s) <;> rfl

theorem length_returnedIn (k : Nat) (s : State.Of c) : (returnedIn k s).length = popCount k s := by
  induction k generalizing s with
  | zero => rfl
  | succ k ih => rw [returnedIn, List.length_append, length_ret, ih, popCount_succ]

section
variable {k : Nat} {s : State.Of c} (hquiet : quiet k s = true) (hhonouring : honouring k s = true)
include hquiet hhonouring

/-- Over an honouring trace the occupancy is exact: no push is lost and no pop counted twice. -/
theorem lengthOut_after_honouring :
    (lengthOut s).toNat + pushCount k s = popCount k s + (lengthOut (after k s)).toNat := by
  have hlengths := congrArg List.length (trace_moves_queue hquiet hhonouring)
  simpa only [List.length_append, length_queue, length_pushedIn, length_returnedIn,
    ← lengthOut_toNat] using hlengths

/-- What is queued at the end is what was queued or pushed, less the first elements returned. -/
theorem queue_after_honouring :
    queue (after k s) = (queue s ++ pushedIn k s).drop (popCount k s) := by
  rw [trace_moves_queue hquiet hhonouring, ← length_returnedIn, List.drop_left]

end

/-- Cell `idx(head)` holds no queued element. -/
theorem idx_head_not_queued {s : State.Of c} {j : Nat} (hj : j < (lengthOut s).toNat) :
    idx (s.tail + BitVec.ofNat c.W j) ≠ idx s.head := by
  rw [lengthOut_toNat] at hj
  intro h
  exact hj.ne ((idx_tail_add_eq_writeCell_iff s hj.le).mp (congrArg BitVec.toNat h))

/-- Settles O33: the queue is empty after the initialisation, and an honouring trace drops from the pushed
elements the ones it returns. -/
theorem honouringTraceKeepsTheQueueInTheCells : Obligations.HonouringTraceKeepsTheQueueInTheCells := by
  intro c k s hinit hquiet hhonouring
  have hstart : queue (cycle s) = [] := queue_cycle_of_initialises hinit
  have hzero : (lengthOut (cycle s)).toNat = 0 := by
    rw [lengthOut_toNat, ← length_queue, hstart, List.length_nil]
  refine ⟨?count, lengthOut_le _, ?cells, fun j => idx_head_not_queued⟩
  case count =>
    have := lengthOut_after_honouring hquiet hhonouring
    omega
  case cells => rw [queue_after_honouring hquiet hhonouring, hstart, List.nil_append]

/-! ### Checks and the other side's actions (R120) -/

/-- Settles O51: over an honouring trace without pushes the length only falls, and without pops it only
rises. -/
theorem aCheckStaysValidAgainstTheOtherSide : Obligations.ACheckStaysValidAgainstTheOtherSide := by
  intro c k s hquiet hhonouring
  have hcount := lengthOut_after_honouring hquiet hhonouring
  simp only [fullOut_eq_false_iff, emptyOut_eq_false_iff, ← lengthOut_toNat]
  constructor
  case left => intro hfull hnoPush; omega
  case right => intro hempty hnoPop; omega

end Sys2Proof.Machine
end

section
/-! PROOFS. The obligation on the pseudo-operations (spec/30_encoding.md R58, spec/20_memory.md R44): a
request expands to an honest command, and a list of requests moves elements through the queue. -/

namespace Sys2Proof.Machine

variable {c : Config}

/-! ### What a request expands to (R58) -/

section
variable {s : State.Of c}

theorem expand_tryPush_of_room (v : Nat) (h : fullOut s = false) : expand (.tryPush v) s = .push v := by
  simp [expand, h]

theorem expand_tryPush_of_full (v : Nat) (h : fullOut s = true) : expand (.tryPush v) s = .nop := by
  simp [expand, h]

theorem expand_tryPop_of_queued (h : emptyOut s = false) : expand .tryPop s = .pop := by
  simp [expand, h]

theorem expand_tryPop_of_empty (h : emptyOut s = true) : expand .tryPop s = .nop := by
  simp [expand, h]

/-- The four cases of `full` and `empty`. -/
theorem expand_tryPushPop (v : Nat) (s : State.Of c) : expand (.tryPushPop v) s =
    if fullOut s then if emptyOut s then .nop else .pop
    else if emptyOut s then .push v else .pushpop v := by
  rw [expand]
  cases fullOut s <;> cases emptyOut s <;> rfl

end

/-- Each request accepts a half only if its flag allows it. -/
theorem honest_expand (r : Request) (s : State.Of c) : Honest (expand r s) s := by
  cases r
  case reset | init | nop => exact ⟨nofun, nofun⟩
  case tryPush v =>
    cases hfull : fullOut s with
    | false => rw [expand_tryPush_of_room v hfull]; exact ⟨fun _ => hfull, nofun⟩
    | true => rw [expand_tryPush_of_full v hfull]; exact ⟨nofun, nofun⟩
  case tryPop =>
    cases hempty : emptyOut s with
    | false => rw [expand_tryPop_of_queued hempty]; exact ⟨nofun, fun _ => hempty⟩
    | true => rw [expand_tryPop_of_empty hempty]; exact ⟨nofun, nofun⟩
  case tryPushPop v =>
    rw [expand_tryPushPop]
    split_ifs with hfull hempty hempty
    · exact ⟨nofun, nofun⟩
    · exact ⟨nofun, fun _ => eq_false_of_ne_true hempty⟩
    · exact ⟨fun _ => eq_false_of_ne_true hfull, nofun⟩
    · exact ⟨fun _ => eq_false_of_ne_true hfull, fun _ => eq_false_of_ne_true hempty⟩

/-- R108: the honest commands are those of a cycle without a violation. -/
theorem honest_iff_no_violation (i : Instr) (s : State.Of c) :
    Honest i s ↔ pushViolOut i s = false ∧ popViolOut i s = false := by
  simp only [Honest, ← Bool.not_eq_true, pushViolOut_iff, popViolOut_iff, not_and]

/-- An expansion is a command, and initialises the block only if the request does. -/
theorem expand_isCommand_and_initialises (r : Request) (s : State.Of c) :
    (expand r s).isCommand = true ∧ initialises (expand r s) = requestInitialises r := by
  cases r
  case reset | init | nop => exact ⟨rfl, rfl⟩
  case tryPush v => rw [expand]; split <;> exact ⟨rfl, rfl⟩
  case tryPop => rw [expand]; split <;> exact ⟨rfl, rfl⟩
  case tryPushPop v => rw [expand_tryPushPop]; split_ifs <;> exact ⟨rfl, rfl⟩

/-! ### What a list of requests does to the queue (R44) -/

theorem attempt_moves_queue {r : Request} (hr : requestInitialises r = false) (s : State.Of c) :
    queue s ++ (pushedBy c (expand r s)).toList = (attempt r s).ret.toList ++ queue (attempt r s) := by
  obtain ⟨hcommand, hinit⟩ := expand_isCommand_and_initialises r s
  obtain ⟨t, hexec, hmoves⟩ :=
    execIn_moves_queue hcommand (hinit.trans hr) (honest_expand r s)
  have ht : attempt r s = t := by rw [attempt, hexec]
  rw [ht, hmoves]

/-- Over a list of requests, what was queued and what is pushed comes out in order or stays queued. -/
theorem attempts_move_queue {l : List Request} (hl : ∀ r ∈ l, requestInitialises r = false)
    (s : State.Of c) :
    queue s ++ attemptPushed l s = attemptReturned l s ++ queue (attempts l s) := by
  induction l generalizing s with
  | nil => exact List.append_nil _
  | cons r rest ih =>
    obtain ⟨hr, hrest⟩ := List.forall_mem_cons.mp hl
    calc queue s ++ attemptPushed (r :: rest) s
        = (queue s ++ (pushedBy c (expand r s)).toList) ++ attemptPushed rest (attempt r s) := by
          rw [attemptPushed, pushedBy, List.append_assoc]
      _ = (attempt r s).ret.toList ++ (queue (attempt r s) ++ attemptPushed rest (attempt r s)) := by
          rw [attempt_moves_queue hr, List.append_assoc]
      _ = attemptReturned (r :: rest) s ++ queue (attempts (r :: rest) s) := by
          rw [ih hrest, ← List.append_assoc, attemptReturned, attempts]

theorem queue_of_empty {s : State.Of c} (h : emptyOut s = true) : queue s = [] := by
  rw [queue_eq_window, (emptyOut_iff s).mp h]
  rfl

/-- Settles O35: every expansion is honest, so the requests move elements through the queue as an
honouring trace does. -/
theorem checkThenActProtocolNeverViolatesAndKeepsOrder :
    Obligations.CheckThenActProtocolNeverViolatesAndKeepsOrder := by
  refine ⟨fun c r s => (honest_iff_no_violation _ s).mp (honest_expand r s), fun c v s => ?table,
    fun c l s hempty hl => ?order⟩
  case table =>
    refine ⟨expand_tryPush_of_room v, expand_tryPush_of_full v, expand_tryPop_of_queued,
      expand_tryPop_of_empty, ?_, ?_, ?_, ?_, rfl, rfl, rfl⟩
    all_goals
      intro hfull hempty
      rw [expand_tryPushPop, hfull, hempty]
      rfl
  case order =>
    have hmoves := attempts_move_queue hl s
    rwa [queue_of_empty hempty, List.nil_append] at hmoves

end Sys2Proof.Machine
end

section
/-! PROOFS. The obligations on what two states have in common (spec/10_state.md R10, R18, R21,
spec/70_reset_and_hazards.md R116): relations between states that a cycle keeps, and what follows for the
outputs and for runs. -/

namespace Sys2Proof.Machine

variable {c : Config}

theorem presentCommand_congr {s t : State.Of c} (h : s.inputs = t.inputs) :
    presentCommand s = presentCommand t := by
  rw [presentCommand, presentCommand, State.Of.present, State.Of.present, h]

/-! ### The upper bits of the counters (R21) -/

theorem idx_succ_congr {v w : Counter c} (h : idx v = idx w) : idx (succ v) = idx (succ w) := by
  rw [← BitVec.toNat_inj, idx_succ, idx_succ, h]

section
variable {s t : State.Of c} (h : SameLow s t)
include h

theorem rdataOut_of_sameLow : rdataOut s = rdataOut t := by
  obtain ⟨-, htail, hcells, -⟩ := h
  rw [rdataOut, rdataOut, readCell, readCell, htail, hcells]

/-- The ten ports are functions of the two indices and the cells. -/
theorem outputs_agreeLow_of_sameLow (i : Instr) : (outputs i s).AgreeLow (outputs i t) := by
  obtain ⟨hhead, htail, -, -⟩ := id h
  have hocc : occupancy s = occupancy t := occupancy_congr hhead htail
  obtain ⟨hlength, hempty, hfull⟩ := status_congr (congrArg BitVec.toNat hocc)
  refine ⟨rdataOut_of_sameLow h, hempty, hfull, hlength, hhead, htail, ?wrWrap, ?rdWrap,
    ?pushViol, ?popViol⟩
  case wrWrap => simp only [outputs, wrWrapOut, hhead]
  case rdWrap => simp only [outputs, rdWrapOut, htail]
  case pushViol => simp only [outputs, pushViolOut, hfull]
  case popViol => simp only [outputs, popViolOut, hempty]

theorem cycle_ret_of_sameLow : (cycle s).ret = (cycle t).ret := by
  rw [cycle_ret, cycle_ret, returned, returned, rdataOut_of_sameLow h]
  obtain ⟨-, -, -, hinputs⟩ := h
  rw [presentCommand_congr hinputs]

theorem cycle_sameLow : SameLow (cycle s) (cycle t) := by
  obtain ⟨hhead, htail, hcells, hinputs⟩ := h
  have hcommand := presentCommand_congr hinputs
  refine ⟨?head, ?tail, fun n => ?cells, ?inputs⟩
  case head =>
    rw [cycle_head, cycle_head, hcommand]
    split_ifs <;> [rfl; exact idx_succ_congr hhead; exact hhead]
  case tail =>
    rw [cycle_tail, cycle_tail, hcommand]
    split_ifs <;> [rfl; exact idx_succ_congr htail; exact htail]
  case cells =>
    rw [cycle_store, cycle_store, hcommand]
    cases pushOperand (presentCommand t) with
    | none => exact hcells n
    | some v => simp only [Store.read_write, writeCell, hhead, hcells]
  case inputs => rw [cycle_inputs, cycle_inputs, hinputs]

end

theorem sameLow_after {s t : State.Of c} (h : SameLow s t) (k : Nat) :
    SameLow (after k s) (after k t) ∧ returnedIn k s = returnedIn k t := by
  induction k generalizing s t with
  | zero => exact ⟨h, rfl⟩
  | succ k ih =>
    obtain ⟨hafter, hreturned⟩ := ih (cycle_sameLow h)
    exact ⟨hafter, by rw [returnedIn, returnedIn, cycle_ret_of_sameLow h, hreturned]⟩

/-- Settles O36: a cycle keeps the agreement, and the ten ports and the returned element are functions of
what the states agree on. -/
theorem upperCounterBitsAreUnobservable : Obligations.UpperCounterBitsAreUnobservable := by
  intro c s t h k
  obtain ⟨hafter, hreturned⟩ := sameLow_after h k
  exact ⟨hafter, hreturned, outputs_agreeLow_of_sameLow hafter⟩

/-! ### The counters after an initialisation (R116) -/

theorem initialised_after (k : Nat) (s : State.Of c) :
    (after k s).initialised = (s.initialised || (commands k s).any initialises) := by
  induction k generalizing s with
  | zero => exact (Bool.or_false _).symm
  | succ k ih => rw [after, ih, cycle_initialised, commands_succ, List.any_cons, Bool.or_assoc]

/-- Two states with the same counters and the same coming inputs. -/
def SameCounters (s t : State.Of c) : Prop := s.head = t.head ∧ s.tail = t.tail ∧ s.inputs = t.inputs

theorem cycle_sameCounters {s t : State.Of c} (h : SameCounters s t) :
    SameCounters (cycle s) (cycle t) := by
  obtain ⟨hhead, htail, hinputs⟩ := h
  have hcommand := presentCommand_congr hinputs
  refine ⟨?head, ?tail, ?inputs⟩
  case head => rw [cycle_head, cycle_head, hcommand, hhead]
  case tail => rw [cycle_tail, cycle_tail, hcommand, htail]
  case inputs => rw [cycle_inputs, cycle_inputs, hinputs]

theorem sameCounters_after {s t : State.Of c} (h : SameCounters s t) (k : Nat) :
    SameCounters (after k s) (after k t) := by
  induction k generalizing s t with
  | zero => exact h
  | succ k ih => exact ih (cycle_sameCounters h)

/-- A cycle that initialises makes the counters agree, whatever they held. -/
theorem sameCounters_of_initialises {s t : State.Of c} (hinputs : s.inputs = t.inputs)
    (h : initialises (presentCommand s) = true) : SameCounters (cycle s) (cycle t) := by
  have ht : initialises (presentCommand t) = true := presentCommand_congr hinputs ▸ h
  obtain ⟨hhead, htail, -, -⟩ := cycle_of_initialises h
  obtain ⟨hhead', htail', -, -⟩ := cycle_of_initialises ht
  exact ⟨hhead.trans hhead'.symm, htail.trans htail'.symm, by rw [cycle_inputs, cycle_inputs, hinputs]⟩

theorem sameCounters_after_initialisation {k : Nat} {s t : State.Of c} (hinputs : s.inputs = t.inputs)
    (h : (commands k s).any initialises = true) : SameCounters (after k s) (after k t) := by
  induction k generalizing s t with
  | zero => cases h
  | succ k ih =>
    rw [commands_succ, List.any_cons, Bool.or_eq_true] at h
    rcases h with hnow | hlater
    · exact sameCounters_after (sameCounters_of_initialises hinputs hnow) k
    · exact ih (by rw [cycle_inputs, cycle_inputs, hinputs]) hlater

/-- Settles O54: the first initialising cycle makes the counters agree, and every later one keeps that. -/
theorem countersAreDefinedForEverAfterInitialisation :
    Obligations.CountersAreDefinedForEverAfterInitialisation := by
  refine fun c k s t hinputs => ⟨initialised_after k s, fun h => ?counters⟩
  case counters =>
    obtain ⟨hhead, htail, -⟩ := sameCounters_after_initialisation hinputs h
    exact ⟨hhead, htail⟩

/-! ### The state of the block (R10, R18) -/

/-- The outputs read the two counters and the store. -/
theorem outputs_congr {s t : State.Of c} (hhead : s.head = t.head) (htail : s.tail = t.tail)
    (hstore : s.store = t.store) (i : Instr) : outputs i s = outputs i t := by
  simp only [outputs, rdataOut, emptyOut, fullOut, lengthOut, wrIdxOut, rdIdxOut, wrWrapOut, rdWrapOut,
    headCarryOut, tailCarryOut, pushViolOut, popViolOut, headQOut, tailQOut, readCell, occupancy,
    hhead, htail, hstore]

/-- Settles O56: each field of the next state is a function of the counters, the store and the command. -/
theorem countersAndStoreAreTheWholeStateOfTheBlock :
    Obligations.CountersAndStoreAreTheWholeStateOfTheBlock := by
  refine fun c s t hhead htail hstore => ⟨outputs_congr hhead htail hstore, fun st => ?cycle⟩
  case cycle =>
    have hcommand : presentCommand (s.withPresent st) = presentCommand (t.withPresent st) := rfl
    have hout := outputs_congr (s := s.withPresent st) (t := t.withPresent st) hhead htail hstore
    refine ⟨?head, ?tail, ?store, ?seen, ?ret⟩
    case head => simp only [cycle_head, hcommand, withPresent_head, hhead]
    case tail => simp only [cycle_tail, hcommand, withPresent_tail, htail]
    case store =>
      simp only [cycle_store, hcommand, writeCell, withPresent_head, withPresent_store, hhead, hstore]
    case seen => rw [cycle_seen, cycle_seen, hcommand, hout]
    case ret =>
      have hrdata : rdataOut (s.withPresent st) = rdataOut (t.withPresent st) :=
        congrArg Outputs.rdata (hout .nop)
      rw [cycle_ret, cycle_ret, hcommand, returned, returned, hrdata]

end Sys2Proof.Machine
end

section
/-! PROOFS. The obligations on the invariant, the laws of the outputs and the state after reset
(spec/42_status.md R92, R93, R95, R96, spec/10_state.md R19, spec/60_exceptions.md R104,
spec/70_reset_and_hazards.md R116). -/

namespace Sys2Proof.Machine

variable {c : Config}

/-! ### The equivalences between the outputs (R96) -/

theorem lengthOut_eq_index_difference (s : State.Of c) :
    ((lengthOut s).toNat : Int)
      = (((wrIdxOut s).toNat : Int) - (rdIdxOut s).toNat) % (c.C : Nat) := by
  rw [lengthOut_toNat]
  exact occupancy_eq_index_difference s

theorem wrWrapOut_of_headCarryOut {i : Instr} {s : State.Of c} (h : headCarryOut i s = true) :
    wrWrapOut i s = true := by
  obtain ⟨hpush, hmax⟩ := (headCarryOut_iff i s).mp h
  exact (wrWrapOut_iff i s).mpr ⟨hpush, mod_C_of_carry hmax⟩

theorem rdWrapOut_of_tailCarryOut {i : Instr} {s : State.Of c} (h : tailCarryOut i s = true) :
    rdWrapOut i s = true := by
  obtain ⟨hpop, hmax⟩ := (tailCarryOut_iff i s).mp h
  exact (rdWrapOut_iff i s).mpr ⟨hpop, mod_C_of_carry hmax⟩

theorem coherent_outputs (i : Instr) (s : State.Of c) : (outputs i s).Coherent :=
  ⟨(lengthOut_toNat s).trans_lt (occupancy_lt s), emptyOut_iff_lengthOut s, fullOut_iff_lengthOut s,
    lengthOut_eq_index_difference s, idx_toNat s.head, idx_toNat s.tail, wrWrapOut_of_headCarryOut,
    rdWrapOut_of_tailCarryOut, fun h => ((pushViolOut_iff i s).mp h).2,
    fun h => ((popViolOut_iff i s).mp h).2⟩

theorem emptyOut_of_full {s : State.Of c} (hC : 1 < c.C) (hfull : fullOut s = true) :
    emptyOut s = false :=
  eq_false_of_ne_true fun hempty => hC.ne' ((full_and_empty_iff s).mp ⟨hfull, hempty⟩)

theorem fullOut_of_empty {s : State.Of c} (hC : 1 < c.C) (hempty : emptyOut s = true) :
    fullOut s = false :=
  eq_false_of_ne_true fun hfull => hC.ne' ((full_and_empty_iff s).mp ⟨hfull, hempty⟩)

/-- Settles O49: a cycle's outputs are coherent, and `C > 1` parts empty from full. -/
theorem outputsAgreeWithEachOther : Obligations.OutputsAgreeWithEachOther := by
  refine fun c i s => ⟨coherent_outputs i s, lengthOut_eq_index_difference s, idx_eq_extractLsb' s.head,
    idx_eq_extractLsb' s.tail, fun hC ⟨hempty, hfull⟩ => ?exclusive⟩
  case exclusive => exact hC.ne' ((full_and_empty_iff s).mp ⟨hfull, hempty⟩)

/-! ### The invariant (R14, R33, R96) -/

theorem wf_cycle_store {s : State.Of c} (h : Store.wf s.store) : Store.wf (cycle s).store := by
  rw [cycle_store]
  cases pushOperand (presentCommand s) with
  | none => exact h
  | some v => exact Store.wf_write _ _ (idx_lt s.head) h

theorem inv_cycle {s : State.Of c} (h : Inv s) : Inv (cycle s) := by
  obtain ⟨hstore, -⟩ := h
  exact ⟨wf_cycle_store hstore, cycle_seen s ▸ coherent_outputs _ s⟩

/-- Settles O31: the write goes to a cell below `C`, and the record is the outputs of one cycle. -/
theorem everyStepKeepsTheInvariant : Obligations.EveryStepKeepsTheInvariant := by
  intro s t hinv hstep
  rw [step_eq_stepIn, stepIn_eq_next_cycle] at hstep
  exact Host.Outcome.next.inj hstep ▸ inv_cycle hinv

/-! ### The state after reset (R19) -/

theorem reset_zeroCounters (c : Config) : (State.Of.reset c).zeroCounters = State.Of.reset c := rfl

/-- The record at reset is written out in the model; it is what the outputs show. -/
theorem reset_seen (c : Config) : (State.Of.reset c).seen = outputs .nop (State.Of.reset c) := by
  rw [outputs_of_no_access (i := .nop) rfl rfl, ← reset_zeroCounters]
  simp only [shown, rdataOut_zeroCounters, emptyOut_zeroCounters, fullOut_zeroCounters,
    lengthOut_zeroCounters, wrIdxOut_zeroCounters, rdIdxOut_zeroCounters]
  rfl

/-- Settles O30: the store is empty, and the record is the outputs of a cycle of NOP. -/
theorem resetStateMeetsTheInvariant : Obligations.ResetStateMeetsTheInvariant :=
  ⟨Store.wf_nil, reset_seen Config.machine ▸ coherent_outputs .nop State.reset⟩

/-- Settles O5: a RESET only zeroes counters that are zero already. -/
theorem resetStateShowsTheOutputsAfterReset : Obligations.ResetStateShowsTheOutputsAfterReset :=
  ⟨reset_seen Config.machine, rfl, rfl, fun n => Store.read_nil n,
    _, rfl, rfl, rfl, fun _ => rfl, rfl, rfl⟩

/-- Settles O4: both commands zero the counters, and the outputs of zeroed counters are known. -/
theorem everyOutputAfterResetOrInit : Obligations.EveryOutputAfterResetOrInit := by
  intro c i s hi
  have hexec : execIn i s = .next (s.capture .reset).zeroCounters := by
    rcases hi with rfl | rfl
    · rfl
    · exact execInit_eq_execReset s
  exact ⟨_, hexec, rfl, rfl, fun _ => rfl, lengthOut_zeroCounters _, emptyOut_zeroCounters _,
    fullOut_zeroCounters _, rdataOut_zeroCounters _, wrIdxOut_zeroCounters _, rdIdxOut_zeroCounters _,
    rfl, rfl, outputs_of_no_access rfl rfl _⟩

/-! ### A cycle that initialises (R104, R116, R121) -/

theorem pushAccepted_of_initialises {i : Instr} (h : initialises i = true) : pushAccepted i = false := by
  rw [pushAccepted, (initialises_accepts h).1]
  rfl

/-- Settles O52: an initialising command accepts nothing, and zeroed counters are empty. -/
theorem initialisationOverridesPushAndPop : Obligations.InitialisationOverridesPushAndPop := by
  intro c s hinit
  obtain ⟨hhead, htail, hstore, hret⟩ := cycle_of_initialises hinit
  have hempty : emptyOut (cycle s) = true := emptyOut_of_zero hhead htail
  have hseen : (cycle s).seen = shown s false false false false false false := by
    rw [cycle_seen,
      outputs_of_no_access (pushAccepted_of_initialises hinit) (initialises_accepts hinit).2]
  refine ⟨hhead, htail, fun n => by rw [hstore], hret, ?_, ?_, ?_, ?_, hempty,
    fun hC => fullOut_of_empty hC hempty⟩
  all_goals
    rw [hseen]
    rfl

/-- Settles O53: the cells of the power-on state are those of the reset state, so an initialisation leaves
only the counters to be zeroed; another command advances the draws. -/
theorem initialisationDefinesThePowerOnState : Obligations.InitialisationDefinesThePowerOnState := by
  intro c st s
  have hcommand : presentCommand s = decode st := rfl
  refine ⟨fun hinit => ?initialisation, fun hquiet => ?other⟩
  case initialisation =>
    obtain ⟨hhead, htail, hstore, -⟩ := cycle_of_initialises (s := s) hinit
    refine ⟨hhead, htail, fun n => congrArg (Store.read · n) hstore, ?bit, cycle_inputs s⟩
    case bit =>
      rw [cycle_initialised, hcommand, hinit]
      rfl
  case other =>
    rw [cycle_initialised, cycle_head, cycle_tail, hcommand, hquiet]
    exact ⟨rfl, rfl, rfl⟩

/-! ### The counters and their arithmetic (R92, R93, R95) -/

/-- Settles O20: each read records the counter it names. -/
theorem counterOutputsShowTheCounters : Obligations.CounterOutputsShowTheCounters := fun s =>
  ⟨⟨_, rfl, rfl, rfl, s.head.isLt⟩, _, rfl, rfl, rfl, s.tail.isLt⟩

theorem succ_toNat_eq_zero_iff (v : Counter c) : (succ v).toNat = 0 ↔ v.toNat = 2 ^ c.W - 1 := by
  have hlt := v.isLt
  rw [succ_toNat]
  rcases Nat.lt_or_ge (v.toNat + 1) (2 ^ c.W) with hroom | hmax
  · rw [Nat.mod_eq_of_lt hroom]
    omega
  · have htop : v.toNat + 1 = 2 ^ c.W := by omega
    rw [htop, Nat.mod_self]
    omega

theorem occupancy_eq_and_MASK (s : State.Of c) :
    (occupancy s).toNat = (s.head - s.tail).toNat &&& c.MASK := by
  rw [occupancy, masked_toNat, and_MASK]

/-- Settles O48: `C` divides the counter range, and the masked difference is the occupancy. -/
theorem arithmeticIsModuloTheCounterRange : Obligations.ArithmeticIsModuloTheCounterRange := by
  refine fun c => ⟨fun x => ?range, fun v => ⟨succ_toNat v, succ_toNat_eq_zero_iff v, idx_succ v⟩,
    fun s => ?difference⟩
  case range => exact Int.emod_emod_of_dvd x (Int.natCast_dvd_natCast.mpr (C_dvd c))
  case difference =>
    rw [← occupancy_eq_and_MASK]
    exact ⟨occupancy_eq_counter_difference s, occupancy_eq_index_difference s⟩

end Sys2Proof.Machine
end

section
/-! PROOFS. The obligation on the checked mode (spec/93_implementation_defined.md U9): its step is the
unchecked one on an honest command and a fault on any other. -/

namespace Sys2Proof.Machine

variable {c : Config}

theorem stepCheckedIn_of_honest {s : State.Of c} (h : Honest (presentCommand s) s) :
    stepCheckedIn s = .next (cycle s) := by
  obtain ⟨hpush, hpop⟩ := (honest_iff_no_violation _ s).mp h
  rw [stepCheckedIn, hpush, hpop]
  exact stepIn_eq_next_cycle s

theorem stepCheckedIn_of_dishonest {s : State.Of c} (h : ¬ Honest (presentCommand s) s) :
    ∃ f, stepCheckedIn s = .fault f := by
  rw [stepCheckedIn]
  cases hpush : pushViolOut (presentCommand s) s with
  | false =>
    cases hpop : popViolOut (presentCommand s) s with
    | false => exact absurd ((honest_iff_no_violation _ s).mpr ⟨hpush, hpop⟩) h
    | true => exact ⟨_, rfl⟩
  | true =>
    cases popViolOut (presentCommand s) s with
    | false => exact ⟨_, rfl⟩
    | true => exact ⟨_, rfl⟩

theorem run_succ_of_fault {M : Host.Core} {s : M.State} {f : M.Fault} (h : M.step s = .fault f)
    (k : Nat) : M.run (k + 1) s = .fault f := by
  rw [Host.Core.run, h]

theorem run_checked_of_honouring {k : Nat} {s : State.Of c} (h : honouring k s = true) :
    (coreChecked c).run k s = .next (after k s) := by
  induction k generalizing s with
  | zero => rfl
  | succ k ih =>
    obtain ⟨hnow, hlater⟩ := (honouring_succ k s).mp h
    exact (run_succ_of_next (M := coreChecked c) (stepCheckedIn_of_honest hnow) k).trans (ih hlater)

theorem run_checked_of_not_honouring {k : Nat} {s : State.Of c} (h : honouring k s = false) :
    ∃ f : Fault, (coreChecked c).run k s = .fault f := by
  induction k generalizing s with
  | zero => cases h
  | succ k ih =>
    by_cases hnow : Honest (presentCommand s) s
    · have hlater : honouring k (cycle s) = false :=
        eq_false_of_ne_true fun hlater =>
          absurd ((honouring_succ k s).mpr ⟨hnow, hlater⟩) (ne_true_of_eq_false h)
      obtain ⟨f, hf⟩ := ih hlater
      exact ⟨f, (run_succ_of_next (M := coreChecked c) (stepCheckedIn_of_honest hnow) k).trans hf⟩
    · obtain ⟨f, hf⟩ := stepCheckedIn_of_dishonest hnow
      exact ⟨f, run_succ_of_fault (M := coreChecked c) hf k⟩

/-- Settles O55: the run goes on past each honest command and stops at the first other one. -/
theorem checkedModeFaultsExactlyOnViolations : Obligations.CheckedModeFaultsExactlyOnViolations :=
  fun _ _ _ => ⟨run_checked_of_honouring, run_checked_of_not_honouring⟩

end Sys2Proof.Machine
end

section
/-! PROOFS. The obligations on single commands in states of every occupancy (spec/41_push_pop.md R70 to R77,
spec/20_memory.md R45): what a push, a pop and a PUSHPOP do at empty, at full, in between and at a counter's
wrap, and runs of pushes beyond full and of pops beyond empty. -/

namespace Sys2Proof.Machine

variable {c : Config}

/-! ### The cells and the status after one half (R36, R70, R71) -/

theorem read_pushHalf_writeCell (s : State.Of c) (v : Elem c) :
    Store.read (s.pushHalf v).store (writeCell s) = v :=
  (Store.read_write ..).trans (if_pos rfl)

/-- A push writes none of the cells that hold the queue. -/
theorem read_pushHalf_queued (s : State.Of c) (v : Elem c) {j : Nat} (hj : j < (lengthOut s).toNat) :
    Store.read (s.pushHalf v).store (idx (s.tail + BitVec.ofNat c.W j)).toNat
      = Store.read s.store (idx (s.tail + BitVec.ofNat c.W j)).toNat :=
  (Store.read_write ..).trans (if_neg fun h => idx_head_not_queued hj (BitVec.eq_of_toNat_eq h))

/-- An empty buffer's next push writes the cell its next pop reads. -/
theorem rdIdxOut_eq_writeCell {s : State.Of c} (hempty : emptyOut s = true) :
    (rdIdxOut s).toNat = writeCell s :=
  (readCell_eq_writeCell_iff s).mpr hempty

theorem emptyOut_pushHalf (s : State.Of c) (v : Elem c) : emptyOut (s.pushHalf v) = fullOut s :=
  emptyOut_of_push (s := s) (t := s.pushHalf v) rfl rfl

theorem fullOut_popHalf (s : State.Of c) : fullOut s.popHalf = emptyOut s :=
  fullOut_of_pop (s := s) (t := s.popHalf) rfl rfl

theorem lengthOut_pushHalf (s : State.Of c) (v : Elem c) :
    (lengthOut (s.pushHalf v)).toNat = if fullOut s then 0 else (lengthOut s).toNat + 1 :=
  lengthOut_of_push (s := s) (t := s.pushHalf v) rfl rfl

/-! ### Honest commands (R70, R71, R122) -/

/-- Settles O50, from what the halves do to the queue. -/
theorem honestCommandsActOnTheQueue : Obligations.HonestCommandsActOnTheQueue := by
  refine fun c v s => ⟨fun hfull => ⟨_, rfl, ?push⟩, fun hempty => ⟨_, rfl, ?pop, rfl⟩,
    fun hempty => ⟨_, rfl, ?pushpop, rfl⟩⟩
  case push => exact queue_pushHalf (s := s.capture (.push v)) hfull (wdataOf c v)
  case pop => exact queue_eq_rdata_cons (s := s.capture .pop) hempty
  case pushpop => exact queue_append_of_pushpop (s := s.capture (.pushpop v)) hempty (wdataOf c v)

/-- Settles O40: the record of the cycle is of the state before the write; after it the cell both indices
named holds the element. -/
theorem pushedElementIsVisibleFromTheNextCycle : Obligations.PushedElementIsVisibleFromTheNextCycle := by
  refine fun c v s hempty => ⟨_, rfl, hempty, rfl, ?visible, fun hC => ⟨?notEmpty, ?one⟩⟩
  case visible => exact (rdataOut_pushHalf (s.capture (.push v)) (wdataOf c v)).trans (if_pos hempty)
  case notEmpty => exact (emptyOut_pushHalf s (wdataOf c v)).trans (fullOut_of_empty hC hempty)
  case one =>
    have hroom := ne_true_of_eq_false (fullOut_of_empty hC hempty)
    have hzero : (lengthOut s).toNat = 0 := (emptyOut_iff_lengthOut s).mp hempty
    exact (lengthOut_pushHalf s (wdataOf c v)).trans ((if_neg hroom).trans (congrArg Nat.succ hzero))

/-! ### PUSHPOP (R73, R76) -/

/-- Settles O41: the halves write different fields, so their order shows only in the element returned when
the push writes the cell the pop reads. -/
theorem pushpopIsPopThenPush : Obligations.PushpopIsPopThenPush := by
  refine fun c v s => ⟨_, _, _, _, _, rfl, rfl, rfl, rfl, rfl, ⟨rfl, rfl, fun _ => rfl, rfl, rfl⟩, rfl,
    ⟨rfl, rfl, fun _ => rfl, rfl, rfl⟩, fun hempty => ?same, fun hempty => ?pushed⟩
  case same =>
    exact congrArg some ((rdataOut_pushHalf s (wdataOf c v)).trans (if_neg (ne_true_of_eq_false hempty))).symm
  case pushed => exact congrArg some ((rdataOut_pushHalf s (wdataOf c v)).trans (if_pos hempty))

/-- Settles O44: the occupancy, and with it every flag, stays as it was, and the pop makes room for the
push whenever the buffer is not empty. -/
theorem pushpopAtItsCorners : Obligations.PushpopAtItsCorners := by
  intro c v s
  obtain ⟨hlength, hempty, hfull⟩ := status_congr (s := s)
    (t := ((s.capture (.pushpop v)).pushHalf (wdataOf c v)).popHalf) (occupancy_pushpop rfl rfl)
  have hqueue (hqueued : emptyOut s = false) :=
    (queue_append_of_pushpop (s := s.capture (.pushpop v)) hqueued (wdataOf c v)).symm
  refine ⟨_, rfl, fun hC hzero => ?atEmpty, fun hC hlast => ?atFull, fun hsome hroom => ?between,
    fun hC => ?oneCell⟩
  case atEmpty =>
    have hnone : emptyOut s = true := (emptyOut_iff_lengthOut s).mpr hzero
    have hcell := rdIdxOut_eq_writeCell hnone
    refine ⟨hnone, fullOut_of_empty hC hnone, ?returned, ?written, rfl, rfl,
      (congrArg BitVec.toNat hlength).trans hzero, hempty.trans hnone,
      queue_of_empty (hempty.trans hnone)⟩
    case returned => exact congrArg (fun n => some (Store.read s.store n)) hcell
    case written => exact hcell ▸ read_pushHalf_writeCell s (wdataOf c v)
  case atFull =>
    have hall : fullOut s = true := (fullOut_iff_lengthOut s).mpr hlast
    have hqueued := emptyOut_of_full hC hall
    exact ⟨hall, hqueued, (congrArg BitVec.toNat hlength).trans hlast, hfull.trans hall, hqueue hqueued⟩
  case between =>
    rw [lengthOut_toNat] at hsome hroom
    have hqueued : emptyOut s = false := (emptyOut_eq_false_iff s).mpr hsome
    exact ⟨(fullOut_eq_false_iff s).mpr hroom, hqueued, hqueue hqueued⟩
  case oneCell =>
    have hcell (w : Counter c) : (idx w).toNat = 0 := by rw [idx_toNat, hC, Nat.mod_one]
    refine ⟨fullOut_of_C_eq_one hC s, emptyOut_of_C_eq_one hC s, ?returned, ?written, ?length⟩
    case returned => exact congrArg (fun n => some (Store.read s.store n)) (hcell s.tail)
    case written => exact hcell s.head ▸ read_pushHalf_writeCell s (wdataOf c v)
    case length => rw [lengthOut_toNat, occupancy_of_C_eq_one hC]

/-! ### The counter's wrap (R77) -/

/-- Settles O45: the last counter value has the last index, and its successor is 0. -/
theorem counterWrapIsInvisible : Obligations.CounterWrapIsInvisible := by
  refine fun c v s => ⟨fun hmax => ?head, fun hmax => ?tail⟩
  case head =>
    have hlast : s.head.toNat % c.C = c.C - 1 := mod_C_of_carry hmax
    exact ⟨_, rfl, succ_of_carry hmax, (headCarryOut_iff (.push v) s).mpr ⟨rfl, hmax⟩,
      (idx_toNat s.head).trans hlast, idx_succ_of_last hlast, lengthOut_of_push_mod (s := s) rfl rfl⟩
  case tail =>
    have hlast : s.tail.toNat % c.C = c.C - 1 := mod_C_of_carry hmax
    exact ⟨_, rfl, succ_of_carry hmax, (tailCarryOut_iff .pop s).mpr ⟨rfl, hmax⟩,
      (idx_toNat s.tail).trans hlast, idx_succ_of_last hlast, lengthOut_of_pop_mod (s := s) rfl rfl⟩

/-! ### Pushes beyond full (R74) -/

theorem quiet_of_access {k : Nat} {s : State.Of c}
    (h : ∀ i ∈ commands k s, pushAccepted i = true ∨ popAccepted i = true) : quiet k s = true := by
  rw [quiet, List.all_eq_true]
  intro i hi
  rw [initialises_of_access (h i hi)]
  rfl

theorem countP_commands_of_all {p : Instr → Bool} {k : Nat} {s : State.Of c}
    (h : ∀ i ∈ commands k s, p i = true) : (commands k s).countP p = k :=
  (List.countP_eq_length.mpr h).trans (length_commands k s)

/-- A run of pushes advances `head` once per cycle and leaves `tail`. -/
theorem counters_after_pushes {k : Nat} {s : State.Of c}
    (h : ∀ i ∈ commands k s, pushAccepted i = true ∧ popAccepted i = false) :
    (after k s).head = s.head + BitVec.ofNat c.W k ∧ (after k s).tail = s.tail := by
  obtain ⟨hhead, htail⟩ := counters_after_quiet (quiet_of_access fun i hi => .inl (h i hi).1)
  have hpushes : pushCount k s = k := countP_commands_of_all fun i hi => (h i hi).1
  have hpops : popCount k s = 0 :=
    List.countP_eq_zero.mpr fun i hi => ne_true_of_eq_false (h i hi).2
  rw [hhead, htail, hpushes, hpops]
  exact ⟨rfl, BitVec.add_zero _⟩

/-- The sacrificed cell lies before the oldest element, so pushes beyond full run on over the queue. -/
theorem idx_head_add_succ_of_full {s : State.Of c} (hfull : fullOut s = true) (k : Nat) :
    idx (s.head + BitVec.ofNat c.W (k + 1)) = idx (s.tail + BitVec.ofNat c.W k) := by
  have hnext : idx (succ s.head) = idx s.tail := (fullOut_iff_idx_succ s).mp hfull
  rw [← BitVec.toNat_inj, idx_add, idx_add, ← hnext, idx_succ, Nat.mod_add_mod, Nat.add_right_comm,
    Nat.add_assoc]

theorem occupancy_of_idx_head {s : State.Of c} {k : Nat}
    (h : idx s.head = idx (s.tail + BitVec.ofNat c.W k)) : (occupancy s).toNat = k % c.C := by
  have hint : ((occupancy s).toNat : Int) = ((k % c.C : Nat) : Int) := by
    rw [occupancy_eq_index_difference, h, idx_add]
    push_cast
    rw [Int.emod_sub_emod, add_sub_cancel_left]
  exact Int.ofNat_inj.mp hint

/-- Settles O42: after the first push the indices are equal, so the second writes the oldest element's
cell; after `k` pushes the write index is `k - 1` past the read index. -/
theorem pushWhenFullMakesTheBufferReportEmpty : Obligations.PushWhenFullMakesTheBufferReportEmpty := by
  refine ⟨fun c v w s hC hfull => ?twoPushes, fun c k s hfull hk hpushes => ?run⟩
  case twoPushes =>
    have hempty : emptyOut (s.pushHalf (wdataOf c v)) = true :=
      (emptyOut_pushHalf s (wdataOf c v)).trans hfull
    have hroom := fullOut_of_empty hC hempty
    have hlast : (lengthOut s).toNat = c.C - 1 := (fullOut_iff_lengthOut s).mp hfull
    refine ⟨_, _, rfl, rfl, hfull, hroom, read_pushHalf_writeCell s (wdataOf c v),
      fun j hj => read_pushHalf_queued s (wdataOf c v) (hj.trans_eq hlast.symm), beq_iff_eq.mp hempty,
      (emptyOut_iff_lengthOut _).mp hempty, hempty, hroom, ?overwritten⟩
    case overwritten =>
      exact (congrArg _ (rdIdxOut_eq_writeCell hempty)).trans
        (read_pushHalf_writeCell (s.pushHalf (wdataOf c v)) (wdataOf c w))
  case run =>
    obtain ⟨k, rfl⟩ := Nat.exists_eq_add_of_le' hk
    obtain ⟨hhead, htail⟩ := counters_after_pushes hpushes
    have hidx : idx (after (k + 1) s).head = idx (s.tail + BitVec.ofNat c.W k) := by
      rw [hhead, idx_head_add_succ_of_full hfull]
    rw [Nat.add_sub_cancel, lengthOut_toNat]
    exact ⟨occupancy_of_idx_head (by rw [htail, hidx]), hidx⟩

/-! ### Pops beyond empty (R75) -/

/-- Pops return the cells from `idx(tail)` on, whether or not they are queued. -/
theorem returnedIn_of_pops_eq_window {k : Nat} {s : State.Of c} (h : ∀ i ∈ commands k s, i = .pop) :
    returnedIn k s = window s.store s.tail k := by
  induction k generalizing s with
  | zero => rfl
  | succ k ih =>
    rw [commands_succ, List.forall_mem_cons] at h
    obtain ⟨hpop, hlater⟩ := h
    have haccepted : popAccepted (presentCommand s) = true := by rw [hpop]; rfl
    have hstore : (cycle s).store = s.store := by rw [cycle_store, hpop]; rfl
    rw [returnedIn, ih hlater, cycle_ret_of_pop haccepted, cycle_tail_of_pop haccepted, hstore,
      window_succ_first]
    rfl

/-- A run of pops advances `tail` once per cycle and leaves `head`. -/
theorem counters_after_pops {k : Nat} {s : State.Of c} (h : ∀ i ∈ commands k s, i = .pop) :
    (after k s).head = s.head ∧ (after k s).tail = s.tail + BitVec.ofNat c.W k := by
  have hpop : ∀ i ∈ commands k s, popAccepted i = true := fun i hi => by rw [h i hi]; rfl
  obtain ⟨hhead, htail⟩ := counters_after_quiet (quiet_of_access fun i hi => .inr (hpop i hi))
  have hpushes : pushCount k s = 0 :=
    List.countP_eq_zero.mpr fun i hi => by rw [h i hi]; exact Bool.false_ne_true
  have hpops : popCount k s = k := countP_commands_of_all hpop
  rw [hhead, htail, hpushes, hpops]
  exact ⟨BitVec.add_zero _, rfl⟩

theorem idx_add_C (v : Counter c) : idx (v + BitVec.ofNat c.W c.C) = idx v := by
  rw [← BitVec.toNat_inj, idx_add, Nat.add_mod_right, Nat.mod_eq_of_lt (idx_lt v)]

/-- Settles O43: the pop at empty moves the read index one past the write index; `C` pops bring it round
to the write index again. -/
theorem popWhenEmptyMakesTheBufferReportFull : Obligations.PopWhenEmptyMakesTheBufferReportFull := by
  refine ⟨fun c s hC hempty => ?onePop, fun c s hempty hpops => ?drain⟩
  case onePop =>
    have hfull : fullOut s.popHalf = true := (fullOut_popHalf s).trans hempty
    have hqueued := emptyOut_of_full hC hfull
    refine ⟨_, rfl, hempty, ?returned, rfl, rfl, fun _ => rfl, (fullOut_iff_lengthOut _).mp hfull, hfull,
      hqueued, fun i => ?noViolation⟩
    case returned => exact congrArg (fun n => some (Store.read s.store n)) (rdIdxOut_eq_writeCell hempty)
    case noViolation => exact (congrArg _ hqueued).trans (Bool.and_false _)
  case drain =>
    obtain ⟨hhead, htail⟩ := counters_after_pops hpops
    have hidx : idx (after c.C s).tail = idx (after c.C s).head := by
      rw [hhead, htail, idx_add_C]
      exact (beq_iff_eq.mp hempty).symm
    exact ⟨(emptyOut_iff_lengthOut _).mp (beq_iff_eq.mpr hidx.symm), hidx,
      returnedIn_of_pops_eq_window hpops⟩

end Sys2Proof.Machine
end
